-- ==== Sys2Proof/Word.lean ====
section
/-! DEFINITION. The byte, and the ASCII codes and tags of 00_scope.md R8 and 30_encoding.md R73. -/

namespace Sys2Proof

/-- A byte, an unsigned 8-bit value (00_scope.md R9, R10). -/
abbrev Byte := BitVec 8

/-- The start marker `<` (R8). -/
abbrev startMarker : Byte := 0x3C
/-- The end marker `>` (R8). -/
abbrev endMarker : Byte := 0x3E
/-- The separator `|` (R8). -/
abbrev separator : Byte := 0x7C
/-- The digit `0`; the digits follow it in order (R8). -/
abbrev zeroDigit : Byte := 0x30
/-- The decimal point (R8). -/
abbrev dotByte : Byte := 0x2E
/-- The minus sign (R8). -/
abbrev minusByte : Byte := 0x2D
/-- The plus sign (R8). -/
abbrev plusByte : Byte := 0x2B

/-- The tag `WEIGHT` (30_encoding.md R73). -/
abbrev tagWeight : List Byte := [0x57, 0x45, 0x49, 0x47, 0x48, 0x54]
/-- The tag `STATUS` (R73). -/
abbrev tagStatus : List Byte := [0x53, 0x54, 0x41, 0x54, 0x55, 0x53]
/-- The tag `BRAIN` (R73). -/
abbrev tagBrain : List Byte := [0x42, 0x52, 0x41, 0x49, 0x4E]

end Sys2Proof
end

