-- ==== Sys2Proof/Config.lean ====
section
/-! DEFINITION. The implementation parameters of 00_scope.md R7 and the free values. -/

namespace Sys2Proof

/-- Which function `NUM_LENIENT` is (R7, 41_codec_decode.md R162): the default rule, or the `k`-th
uninterpreted function (93_implementation_defined.md I2). DESIGN CHOICE, safe: log entry 8. -/
inductive LenientMode where
  | longestPrefix
  | uninterpreted (k : Nat)
deriving DecidableEq, Repr

/-- The parameters that R7 leaves to the implementation. They are fixed at startup; no event writes
them (10_state.md R34). -/
structure Config where
  rxCap : Nat
  txCap : Nat
  baud : Nat
  brainTimeDecimals : Nat
  deActiveHigh : Bool
  numLenient : LenientMode
deriving DecidableEq, Repr

/-- The legal ranges of R7 and 70_reset_and_hazards.md R283; `fmt` takes at least one decimal (R101):
DEDUCED, safe, log entry 18. -/
def Config.legal (c : Config) : Bool :=
  decide (2 ≤ c.rxCap) && decide (c.rxCap ≤ 65536) && decide (1 ≤ c.txCap) && decide (c.txCap ≤ 65535)
    && decide (1 ≤ c.brainTimeDecimals)

/-- The parameters of State.reset: the defaults of R7, and for the three that R7 leaves OPEN the values
the spec's vectors use. DESIGN CHOICE, unsafe: log entry 1. -/
def Config.initial : Config where
  rxCap := 256
  txCap := 256
  baud := 9600
  brainTimeDecimals := 1
  deActiveHigh := true
  numLenient := .longestPrefix

/-- `WEIGHT_DECIMALS` (R7). -/
def Config.weightDecimals : Nat := 2
/-- `PCT_DECIMALS` (R7). -/
def Config.pctDecimals : Nat := 1
/-- `VOLT_DECIMALS` (R7). -/
def Config.voltDecimals : Nat := 2
/-- `CURR_DECIMALS` (R7). -/
def Config.currDecimals : Nat := 2

/-- FREE VALUE: the value of a malformed numeric field under the `k`-th uninterpreted `NUM_LENIENT`
(R162, I2). Safe: log entry 8. -/
opaque Config.lenientValue : Nat → List Byte → Rat

/-- FREE VALUE: the byte that `RxBuf[i]` holds before anything is written there (10_state.md R30, R39, I9). Safe: log entry 6. -/
opaque Config.rxUnwritten : Nat → Byte

/-- FREE VALUE: the byte that `TxBuf[i]` holds before anything is written there (R31, R39, I9). Safe: log entry 6. -/
opaque Config.txUnwritten : Nat → Byte

/-- FREE VALUE: whether the line carried a byte of the `k`-th draw (43_transceiver.md R217, I10, I23).
Safe: log entries 9 and 10. -/
opaque Config.lineDraw : Nat → Bool

end Sys2Proof
end

