-- ==== Sys2Proof/Syntax.lean ====
section
/-! DEFINITION. The instruction syntax: one constructor of `Instr` per row of spec/opcode_table.json. -/

namespace Sys2Proof

/-- The sign of a `core` text (30_encoding.md R75). -/
inductive Sign where
  | plus
  | minus
deriving DecidableEq, Repr

/-- A `NUM` operand: a text of the grammar `core` of R75, field by field. `intPart` may be empty only
where `frac` holds a digit; `frac` is the digits after a point, and `none` where there is no point. DEDUCED, safe:
log entry 14. -/
structure Decimal where
  sign : Option Sign
  intPart : List (Fin 10)
  frac : Option (List (Fin 10))
deriving DecidableEq, Repr

/-- What the first field of a payload selects (R73, 41_codec_decode.md R142). -/
inductive Tag where
  | weight
  | status
  | brain
  | unknown
deriving DecidableEq, Repr

/-- Why an event is refused (60_exceptions.md R259). -/
inductive RefuseReason where
  /-- The kind is 0x0 or in 0xA..0xF. -/
  | reservedKind
  /-- The modifier is not listed for the kind. -/
  | reservedModifier
  /-- A `NUM` operand is not `core` text. -/
  | badNum
  /-- The stream ended inside an event. -/
  | truncatedEvent
  /-- A value that is no finite rational. The `NUM` encoding cannot express one (R259), so no event
  raises it: log entry 16. -/
  | nonfiniteValue
deriving DecidableEq, Repr

/-- The instructions. The first fourteen are the input events of 30_encoding.md R80; the last four are the
`payload_tag` rows, selected by a payload's first field (R142). `F` is the field list `split(p, 0x7C)`. -/
inductive Instr where
  | reset
  | rxStart
  | rxEnd
  | rxData (d : Byte)
  | cmdTransmit (bs : List Byte)
  | cmdSendWeight (v : Decimal)
  | cmdSendStatus (t : List Byte)
  | txWriteOk
  | txWriteErr
  | txFlushDone
  | encodeWeight (v : Decimal)
  | encodeStatus (t : List Byte)
  | encodeBrain (t p v c : Decimal)
  | cmdDecode (p : List Byte)
  | decodeWeight (F : List (List Byte))
  | decodeStatus (F : List (List Byte))
  | decodeBrain (F : List (List Byte))
  | decodeUnknown (p : List Byte)
deriving DecidableEq, Repr

end Sys2Proof
end

