-- ==== Sys2Proof/Machine/State.lean ====
section
/-! DEFINITION. Everything the spec gives the block to hold (10_state.md), as plain data, and its reset values. -/

namespace Sys2Proof.Machine

/-- The two address spaces (20_memory.md R50). -/
inductive Space where
  | rx
  | tx
deriving DecidableEq, Repr

/-- A byte-addressed space (20_memory.md R50): the bytes that were written, by index. -/
abbrev Memory := List Host.Cell

/-- The canonical form: indices strictly rising, so each written index is listed once. Whether a written byte equals the free value
it replaced cannot be evaluated, so a written index stays listed: log entry 6. -/
abbrev Memory.wf (m : Memory) : Prop := (m.map Prod.fst).Pairwise (· < ·)

/-- What an unlisted index holds: an unspecified value (10_state.md R30, R31, R39), which is any value (93_implementation_defined.md
I9), a free value. Safe: log entry 6. -/
def Memory.unlisted : Space → Nat → Byte
  | .rx, i => Config.rxUnwritten i
  | .tx, i => Config.txUnwritten i

/-- The receiver's state (R22). -/
inductive RxState where
  | idle
  | acc
deriving DecidableEq, Repr

/-- The bus direction (R24). -/
inductive Dir where
  | listen
  | drive
deriving DecidableEq, Repr

/-- The phase of an outbound transmission (R26). The code 3 has no phase. -/
inductive TxPhase where
  | idle
  | write
  | flush
deriving DecidableEq, Repr

/-- The fault codes (60_exceptions.md R254). -/
inductive FaultCode where
  | rxDuringTx
  | txReentry
  | unexpectedWriteResp
  | unexpectedFlushDone
deriving DecidableEq, Repr

/-- What a fault records: its code and its info (R254, R255). -/
structure FaultRecord where
  code : FaultCode
  info : Nat
deriving DecidableEq, Repr

/-- The result codes (R250). -/
inductive ResultCode where
  | ok
  | errOversize
  | errText
  | errWrite
deriving DecidableEq, Repr

/-- A decoded payload (00_scope.md R14, 41_codec_decode.md R140). Numbers are exact rationals (R161). -/
inductive Message where
  | weight (value : Rat)
  | status (text : List Byte)
  | brain (systemTime batteryPercent batteryVoltage batteryCurrent : Rat)
  | unknown (payload : List Byte)
deriving DecidableEq, Repr

/-- The output events (R260). -/
inductive OutEvent where
  | dir (d : Dir)
  | txReq (b : Byte)
  | flushReq
  | result (code : ResultCode)
  | frameOut (p : List Byte)
  | msgOut (m : Message)
  | encOut (code : ResultCode) (bytes : List Byte)
  | decOut (m : Message)
deriving DecidableEq, Repr

/-- What became of a byte handed to the transport (43_transceiver.md R217): not yet answered, put on the line, or
a draw whose outcome is the free value `Config.lineDraw k`. -/
inductive Fate where
  | asked
  | sent
  | draw (k : Nat)
deriving DecidableEq, Repr

/-- A byte handed to the transport and its fate. -/
structure LineByte where
  byte : Byte
  fate : Fate
deriving DecidableEq, Repr

/-- Why a step stops. -/
inductive Fault where
  /-- Every meaning, and `step`, once a fault is recorded: no later step is enabled, RESET included
  (60_exceptions.md R255, I12). Safe: the machine is stuck as the spec says. Log entry 4. -/
  | notEnabled (r : FaultRecord)
  /-- RX_END and TX_WRITE_OK, where they would read outside the space. No run from reset does (R51, R52).
  Safe: log entry 7. -/
  | noSuchIndex (space : Space) (index : Nat)
deriving DecidableEq, Repr

/-- Why a step has no meaning. -/
inductive Refusal where
  /-- An arm of `exec` whose instruction has no meaning yet. Safe. -/
  | notModelled (mnemonic : String)
  /-- `step`, once an event was refused: the run carries the mark and satisfies no claim (60_exceptions.md
  R258). Safe: log entry 5. -/
  | refusedEvent (r : RefuseReason)
deriving DecidableEq, Repr

/-- The state: the block's own tuple (R21), the parameters (R7), the run's mark and trace (R258, R260), the events
not yet performed (20_memory.md R59), and the record of the transport's side (R217). -/
structure State where
  /-- The parameters; no step writes them (R34). Log entry 1. -/
  cfg : Config
  rxState : RxState
  rxIdx : Nat
  rxBuf : Memory
  dir : Dir
  txPhase : TxPhase
  txLen : Nat
  txPos : Nat
  txErr : Bool
  txBuf : Memory
  fault : Option FaultRecord
  /-- The run-wide mark (R258). Log entry 5. -/
  refused : Option RefuseReason
  /-- The bytes of the events not yet performed. Log entry 2. -/
  input : List Byte
  /-- The output trace, oldest first (R260). Log entry 3. -/
  trace : List OutEvent
  /-- The model's own: the bytes handed over in the transmission in flight. Log entry 9. -/
  handed : List LineByte
  /-- The model's own: the bytes of ended transmissions. Log entry 9. -/
  line : List LineByte
  /-- The model's own: how many draws were made. Log entry 9. -/
  draws : Nat
deriving DecidableEq, Repr

/-- The machine at power-on (10_state.md R39, 70_reset_and_hazards.md R281). The parameters are log entry 1 (DESIGN CHOICE, unsafe);
The buffers hold free values (log entry 6). `input`, `trace` and the record of the line start empty: log entries 2, 3 and 9 (DESIGN CHOICE). -/
def State.reset : State where
  cfg := Config.initial
  rxState := .idle
  rxIdx := 0
  rxBuf := []
  dir := .listen
  txPhase := .idle
  txLen := 0
  txPos := 0
  txErr := false
  txBuf := []
  fault := none
  refused := none
  input := []
  trace := []
  handed := []
  line := []
  draws := 0

end Sys2Proof.Machine
end

