-- ==== Sys2Proof/Machine/Flags.lean ====
section
/-! DEFINITION. The codes of the state fields, the status view (10_state.md R32, R33), the level of `de` (R25) and the
informative line time (70_reset_and_hazards.md R289). Each is a function of the state: reading has no side effect (R57). -/

namespace Sys2Proof.Machine

/-- `IDLE` = 0, `ACC` = 1 (R22). -/
def rxStateCode : RxState → Nat
  | .idle => 0
  | .acc => 1

/-- `LISTEN` = 0, `DRIVE` = 1 (R21). -/
def dirCode : Dir → Nat
  | .listen => 0
  | .drive => 1

/-- `TX_IDLE` = 0, `TX_WRITE` = 1, `TX_FLUSH` = 2 (R21, R26). -/
def txPhaseCode : TxPhase → Nat
  | .idle => 0
  | .write => 1
  | .flush => 2

/-- The numbers of the result codes (60_exceptions.md R250). -/
def resultNumber : ResultCode → Nat
  | .ok => 0
  | .errOversize => 1
  | .errText => 2
  | .errWrite => 3

/-- The numbers of the fault codes (R254). -/
def faultNumber : FaultCode → Nat
  | .rxDuringTx => 1
  | .txReentry => 2
  | .unexpectedWriteResp => 3
  | .unexpectedFlushDone => 4

/-- `STATUS` (R32): RXIDX in 31:16, zeros in 15:5, TXERR in 4, TXPH in 3:2, DIR in 1, RXS in 0. An index above 16 bits, which no
run reaches, shows its low bits: DEDUCED, safe, log entry 17. -/
def statusWord (s : State) : BitVec 32 :=
  BitVec.ofNat 16 s.rxIdx ++ (0 : BitVec 11) ++ BitVec.ofBool s.txErr ++ BitVec.ofNat 2 (txPhaseCode s.txPhase)
    ++ BitVec.ofNat 1 (dirCode s.dir) ++ BitVec.ofNat 1 (rxStateCode s.rxState)

/-- `TXSTAT` (R33): tx_pos in 31:16, tx_len in 15:0. -/
def txStatWord (s : State) : BitVec 32 := BitVec.ofNat 16 s.txPos ++ BitVec.ofNat 16 s.txLen

/-- The level of the output `de` (R25). -/
def deLevel (s : State) : Bool :=
  if s.cfg.deActiveHigh then decide (s.dir = .drive) else decide (s.dir = .listen)

/-- What the line carried of the bytes recorded, in order (43_transceiver.md R217): the sent ones, and those of a draw
where the free value says so. -/
def lineCarried : List LineByte → List Byte
  | [] => []
  | x :: xs =>
    match x.fate with
    | .asked => lineCarried xs
    | .sent => x.byte :: lineCarried xs
    | .draw k => if Config.lineDraw k then x.byte :: lineCarried xs else lineCarried xs

/-- Seconds that a frame of `n` bytes occupies the line: ten bit times a byte (R289, informative; no rule of the model
depends on it). PRESUMED, unsafe for a claim about time: log entry 22. -/
def lineSeconds (c : Config) (n : Nat) : Rat := (10 * n : Rat) / c.baud

end Sys2Proof.Machine
end

