-- ==== Sys2Proof/Machine/Ops.lean ====
section
/-! DEFINITION. The named operations over the buffers and the state fields that the meanings share. Raising a fault is
`raise`; nothing returns from one (60_exceptions.md R263, R264). -/

namespace Sys2Proof.Machine

/-! ### The buffers (20_memory.md R50 to R52) -/

/-- The byte written at an index, if one was. -/
def memRead : Memory → Nat → Option Byte
  | [], _ => none
  | c :: m, a => if a = c.1 then some c.2 else memRead m a

/-- Writes one byte, keeping the canonical form. -/
def memWrite : Memory → Nat → Byte → Memory
  | [], a, b => [(a, b)]
  | c :: m, a, b =>
    if a < c.1 then (a, b) :: c :: m
    else if a = c.1 then (a, b) :: m
    else c :: memWrite m a b

/-- Writes bytes at consecutive indices from `a` on. -/
def memWriteList : Memory → Nat → List Byte → Memory
  | m, _, [] => m
  | m, a, b :: bs => memWriteList (memWrite m a b) (a + 1) bs

/-- The byte that a space holds at an index: the one written, else the unspecified one (10_state.md R30, R31; log entry 6). -/
def memByte (sp : Space) (m : Memory) (i : Nat) : Byte := (memRead m i).getD (Memory.unlisted sp i)

/-- A read of a space of `cap` bytes (R50). Every index of the space holds a byte; one outside it faults: safe, log entry 7. -/
def readSpace (sp : Space) (cap : Nat) (m : Memory) (i : Nat) : Except Fault Byte :=
  if i < cap then .ok (memByte sp m i) else .error (.noSuchIndex sp i)

/-- `MemRead(RX:i, 1)` (00_scope.md R12). -/
def readRx (s : State) (i : Nat) : Except Fault Byte := readSpace .rx s.cfg.rxCap s.rxBuf i

/-- `MemRead(TX:i, 1)` (R12). -/
def readTx (s : State) (i : Nat) : Except Fault Byte := readSpace .tx s.cfg.txCap s.txBuf i

/-- The bytes `RX[0..n)`, lowest index first (42_receiver.md R182). -/
def readPayload (s : State) : Nat → Except Fault (List Byte)
  | 0 => .ok []
  | n + 1 =>
    match readPayload s n with
    | .error f => .error f
    | .ok p =>
      match readRx s n with
      | .error f => .error f
      | .ok b => .ok (p ++ [b])

/-! ### Faults (60_exceptions.md R254, R255) -/

/-- `raise Fault(code, info)`: the step writes `fault` and nothing else, and emits nothing. -/
def raise (s : State) (code : FaultCode) (info : Nat) : Host.Outcome State Fault Refusal :=
  .next { s with fault := some ⟨code, info⟩ }

/-- A step is enabled only while no fault is recorded (R255, 10_state.md R29). -/
def whenEnabled (s : State) (body : Host.Outcome State Fault Refusal) : Host.Outcome State Fault Refusal :=
  match s.fault with
  | some r => .fault (.notEnabled r)
  | none => body

/-- The fault check of a step that needs the phase `p` (R257). -/
def whenPhase (s : State) (p : TxPhase) (code : FaultCode) (info : Nat) (body : Host.Outcome State Fault Refusal) :
    Host.Outcome State Fault Refusal :=
  if s.txPhase = p then body else raise s code info

/-! ### Output events (R260) -/

/-- `emit E` (00_scope.md R12). -/
def emit (s : State) (e : OutEvent) : State := { s with trace := s.trace ++ [e] }

/-- Sets the direction line and emits `Dir(d)`. -/
def setDir (s : State) (d : Dir) : State := { s with dir := d, trace := s.trace ++ [.dir d] }

/-- Emits `TxReq(b)`: hands the byte to the transport (43_transceiver.md R210). -/
def requestByte (s : State) (b : Byte) : State :=
  { s with trace := s.trace ++ [.txReq b], handed := s.handed ++ [⟨b, .asked⟩] }

/-- Enters `TX_FLUSH` and emits `FlushReq`. -/
def requestFlush (s : State) : State := { s with txPhase := .flush, trace := s.trace ++ [.flushReq] }

/-! ### The transport's side (R217) -/

/-- Gives the last byte of a list its fate. -/
def settleLast (f : Fate) : List LineByte → List LineByte
  | [] => []
  | [x] => [⟨x.byte, f⟩]
  | x :: y :: xs => x :: settleLast f (y :: xs)

/-- The byte last handed over is on the line. -/
def markSent (s : State) : State := { s with handed := settleLast .sent s.handed }

/-- Whether the byte last handed over is on the line is a fresh draw. -/
def markDrawn (s : State) : State :=
  { s with handed := settleLast (.draw s.draws) s.handed, draws := s.draws + 1 }

/-- The transmission's bytes are fully on the line, as far as they will be. -/
def settleLine (s : State) : State := { s with handed := [], line := s.line ++ s.handed }

/-- Each byte gets a fresh draw, numbered from `k` on. -/
def drawAll : Nat → List LineByte → List LineByte
  | _, [] => []
  | k, x :: xs => ⟨x.byte, .draw k⟩ :: drawAll (k + 1) xs

/-- The bytes already handed over may be cut off on the line (70_reset_and_hazards.md R282, I23). -/
def cutLine (s : State) : State :=
  { s with handed := [], line := s.line ++ drawAll s.draws s.handed, draws := s.draws + s.handed.length }

/-! ### Starting a transmission (43_transceiver.md R211) -/

/-- Writes the transmit buffer and clears position and error. -/
def loadTx (s : State) (bs : List Byte) : State :=
  { s with txBuf := memWriteList s.txBuf 0 bs, txLen := bs.length, txPos := 0, txErr := false }

/-- Enters `TX_WRITE`. -/
def enterWrite (s : State) : State := { s with txPhase := .write }

/-- `START(bs)`. -/
def start (s : State) (bs : List Byte) : State :=
  match bs with
  | [] => requestFlush (setDir (loadTx s []) .drive)
  | b :: rest => requestByte (enterWrite (setDir (loadTx s (b :: rest)) .drive)) b

/-! ### Taking an event from the stream -/

/-- The event's bytes leave the stream. -/
def consume (s : State) (rest : List Byte) : State := { s with input := rest }

/-- The run-wide mark (60_exceptions.md R258): the event gets no step and stays where it is. -/
def markRefused (s : State) (r : RefuseReason) : State := { s with refused := some r }

end Sys2Proof.Machine
end

