-- ==== Sys2Proof/Machine/Control.lean ====
section
/-! DEFINITION. RESET (70_reset_and_hazards.md R280 to R282). -/

namespace Sys2Proof.Machine

/-- Releases the line: `Dir(LISTEN)` is emitted only if the block was driving. -/
def releaseLine (s : State) : State :=
  match s.dir with
  | .drive => setDir s .listen
  | .listen => s

/-- The fields that RESET writes besides `dir`. The buffers keep their contents; `fault` is not written (10_state.md R39). -/
def clearBlock (s : State) : State :=
  { s with txPhase := .idle, txLen := 0, txPos := 0, txErr := false, rxState := .idle, rxIdx := 0 }

/-- RESET (R280). It has no fault check (60_exceptions.md R257), emits no `Result` and sends no `FlushReq` (R282). -/
def execReset (s : State) : Host.Outcome State Fault Refusal :=
  whenEnabled s (.next (clearBlock (cutLine (releaseLine s))))

end Sys2Proof.Machine
end

