-- ==== Sys2Proof/WellFormed.lean ====
section
/-! DEFINITION. Which terms of `Instr` some encoding stands for. -/

namespace Sys2Proof

/-- `core = [sign] 1*DIGIT [ "." *DIGIT ] / [sign] "." 1*DIGIT` (30_encoding.md R75). -/
def Decimal.wellFormed (d : Decimal) : Bool :=
  !d.intPart.isEmpty || (match d.frac with | some (_ :: _) => true | _ => false)

/-- How many bytes the text has. -/
def Decimal.textLength (d : Decimal) : Nat :=
  (match d.sign with | some _ => 1 | none => 0) + d.intPart.length
    + (match d.frac with | some ds => ds.length + 1 | none => 0)

/-- A `NUM` operand: `core` text of at most 255 bytes, the reach of its length byte (R81). -/
def numOperandOk (d : Decimal) : Bool := d.wellFormed && decide (d.textLength ≤ 255)

/-- A `LEN16` operand: at most 65535 bytes (R81). -/
def lenOperandOk (bs : List Byte) : Bool := decide (bs.length ≤ 65535)

/-- A field list of `split` whose first field is the tag (41_codec_decode.md R141 to R145). -/
def fieldListOk (tag : List Byte) (F : List (List Byte)) : Bool :=
  decide (F.head? = some tag) && F.all (fun f => !f.contains separator)

/-- The bytes before the first separator: the first field (R141). -/
def firstField (p : List Byte) : List Byte := p.takeWhile (fun b => b != separator)

/-- A payload whose tag is none of the three (R146). -/
def unknownTagOk (p : List Byte) : Bool :=
  decide (firstField p ≠ tagWeight) && decide (firstField p ≠ tagStatus) && decide (firstField p ≠ tagBrain)

/-- The terms that an encoding stands for. -/
def Instr.wellFormed : Instr → Bool
  | .reset => true
  | .rxStart => true
  | .rxEnd => true
  | .rxData d => decide (d ≠ startMarker) && decide (d ≠ endMarker)
  | .cmdTransmit bs => lenOperandOk bs
  | .cmdSendWeight v => numOperandOk v
  | .cmdSendStatus t => lenOperandOk t
  | .txWriteOk => true
  | .txWriteErr => true
  | .txFlushDone => true
  | .encodeWeight v => numOperandOk v
  | .encodeStatus t => lenOperandOk t
  | .encodeBrain t p v c => numOperandOk t && numOperandOk p && numOperandOk v && numOperandOk c
  | .cmdDecode p => lenOperandOk p
  | .decodeWeight F => fieldListOk tagWeight F
  | .decodeStatus F => fieldListOk tagStatus F
  | .decodeBrain F => fieldListOk tagBrain F
  | .decodeUnknown p => unknownTagOk p

/-- The input events: what a header byte of R80 starts. The other four are the `payload_tag` rows. -/
def Instr.isEvent : Instr → Bool
  | .reset => true
  | .rxStart => true
  | .rxEnd => true
  | .rxData _ => true
  | .cmdTransmit _ => true
  | .cmdSendWeight _ => true
  | .cmdSendStatus _ => true
  | .txWriteOk => true
  | .txWriteErr => true
  | .txFlushDone => true
  | .encodeWeight _ => true
  | .encodeStatus _ => true
  | .encodeBrain _ _ _ _ => true
  | .cmdDecode _ => true
  | .decodeWeight _ => false
  | .decodeStatus _ => false
  | .decodeBrain _ => false
  | .decodeUnknown _ => false

end Sys2Proof
end

