-- ==== Sys2Proof/Decode.lean ====
section
/-! DEFINITION. Event decoding (30_encoding.md R80 to R83), tag dispatch (41_codec_decode.md R141, R142), and the
encoder written from the same tables. -/

namespace Sys2Proof

/-! ### The decimal grammar `core` (R75) -/

/-- The value of an ASCII digit (00_scope.md R8). -/
def digitOf (b : Byte) : Option (Fin 10) :=
  if h : 0x30 ≤ b.toNat ∧ b.toNat ≤ 0x39 then some ⟨b.toNat - 0x30, by omega⟩ else none

/-- The ASCII code of a digit (R8). -/
def digitByte (d : Fin 10) : Byte := BitVec.ofNat 8 (0x30 + d.val)

/-- The longest run of digits at the front of a text. -/
def digitRun : List Byte → List (Fin 10)
  | [] => []
  | b :: bs =>
    match digitOf b with
    | none => []
    | some d => d :: digitRun bs

/-- What follows the longest run of digits. -/
def afterDigits : List Byte → List Byte
  | [] => []
  | b :: bs =>
    match digitOf b with
    | none => b :: bs
    | some _ => afterDigits bs

/-- An optional sign at the front of a text, and the rest. -/
def readSign : List Byte → Option Sign × List Byte
  | [] => (none, [])
  | b :: bs =>
    if b = plusByte then (some .plus, bs)
    else if b = minusByte then (some .minus, bs)
    else (none, b :: bs)

/-- A text after its sign: `1*DIGIT [ "." *DIGIT ] / "." 1*DIGIT`, and nothing more. -/
def parseUnsigned (s : Option Sign) (bs : List Byte) : Option Decimal :=
  match afterDigits bs with
  | [] => if digitRun bs = [] then none else some ⟨s, digitRun bs, none⟩
  | b :: rest =>
    if b = dotByte ∧ afterDigits rest = [] ∧ (digitRun bs ≠ [] ∨ digitRun rest ≠ []) then
      some ⟨s, digitRun bs, some (digitRun rest)⟩
    else none

/-- A text that matches `core` completely, field by field; `none` where it does not (R75). -/
def parseCore (bs : List Byte) : Option Decimal := parseUnsigned (readSign bs).1 (readSign bs).2

/-- The bytes of a sign. -/
def signText : Option Sign → List Byte
  | none => []
  | some .plus => [plusByte]
  | some .minus => [minusByte]

/-- The bytes from the decimal point on. -/
def fracText : Option (List (Fin 10)) → List Byte
  | none => []
  | some ds => dotByte :: ds.map digitByte

/-- The `core` text of a decimal. -/
def Decimal.text (d : Decimal) : List Byte := signText d.sign ++ d.intPart.map digitByte ++ fracText d.frac

/-! ### Operand forms (R81) -/

/-- The next `n` bytes; a stream that ends before them is refused (R83). -/
def takeBytes (n : Nat) (bs : List Byte) : Except RefuseReason (List Byte × List Byte) :=
  if n ≤ bs.length then .ok (bs.take n, bs.drop n) else .error .truncatedEvent

/-- `LEN16`, low byte first (20_memory.md R54), and the bytes it announces. `TEXT` has the same form. -/
def readLen16 (bs : List Byte) : Except RefuseReason (List Byte × List Byte) :=
  match bs with
  | lo :: hi :: rest => takeBytes (lo.toNat + 256 * hi.toNat) rest
  | _ => .error .truncatedEvent

/-- `NUM`: a length byte and that many bytes of `core` text. -/
def readNum (bs : List Byte) : Except RefuseReason (Decimal × List Byte) :=
  match bs with
  | [] => .error .truncatedEvent
  | n :: rest =>
    match takeBytes n.toNat rest with
    | .error r => .error r
    | .ok (text, rest') =>
      match parseCore text with
      | none => .error .badNum
      | some d => .ok (d, rest')

/-- The bytes of a `LEN16` operand. -/
def len16Bytes (bs : List Byte) : List Byte :=
  BitVec.ofNat 8 (bs.length % 256) :: BitVec.ofNat 8 (bs.length / 256) :: bs

/-- The bytes of a `NUM` operand. -/
def numBytes (d : Decimal) : List Byte := BitVec.ofNat 8 d.text.length :: d.text

/-! ### Event decoding (R80, R82, R83) -/

/-- `RX_BYTE` sub-decoding: the first matching row wins (R82). -/
def rxByte (d : Byte) : Instr :=
  if d = startMarker then .rxStart else if d = endMarker then .rxEnd else .rxData d

/-- An event that has no operands. -/
def plainEvent (i : Instr) (bs : List Byte) : Except RefuseReason (Instr × List Byte) := .ok (i, bs)

/-- An event whose operand is a `LEN16` or `TEXT`. -/
def lenEvent (mk : List Byte → Instr) (bs : List Byte) : Except RefuseReason (Instr × List Byte) :=
  match readLen16 bs with
  | .error r => .error r
  | .ok (t, rest) => .ok (mk t, rest)

/-- An event whose operand is one `NUM`. -/
def numEvent (mk : Decimal → Instr) (bs : List Byte) : Except RefuseReason (Instr × List Byte) :=
  match readNum bs with
  | .error r => .error r
  | .ok (v, rest) => .ok (mk v, rest)

/-- `ENCODE_BRAIN`: four `NUM`s, time, percent, voltage, current (R80). -/
def brainEvent (bs : List Byte) : Except RefuseReason (Instr × List Byte) :=
  match readNum bs with
  | .error r => .error r
  | .ok (t, r1) =>
    match readNum r1 with
    | .error r => .error r
    | .ok (p, r2) =>
      match readNum r2 with
      | .error r => .error r
      | .ok (v, r3) => numEvent (.encodeBrain t p v) r3

/-- `RX_BYTE`: one operand byte. -/
def rxEvent (bs : List Byte) : Except RefuseReason (Instr × List Byte) :=
  match bs with
  | [] => .error .truncatedEvent
  | d :: rest => .ok (rxByte d, rest)

/-- The table of R80: kind `K = H[7:4]`, modifier `M = H[3:0]`, then the operands. -/
def decodeBody (k m : Nat) (bs : List Byte) : Except RefuseReason (Instr × List Byte) :=
  match k with
  | 0x1 => if m = 0 then plainEvent .reset bs else .error .reservedModifier
  | 0x2 => if m = 0 then rxEvent bs else .error .reservedModifier
  | 0x3 => if m = 0 then lenEvent .cmdTransmit bs else .error .reservedModifier
  | 0x4 => if m = 0 then numEvent .cmdSendWeight bs else .error .reservedModifier
  | 0x5 => if m = 0 then lenEvent .cmdSendStatus bs else .error .reservedModifier
  | 0x6 =>
    if m = 0 then plainEvent .txWriteOk bs
    else if m = 1 then plainEvent .txWriteErr bs
    else .error .reservedModifier
  | 0x7 => if m = 0 then plainEvent .txFlushDone bs else .error .reservedModifier
  | 0x8 =>
    if m = 0 then numEvent .encodeWeight bs
    else if m = 1 then lenEvent .encodeStatus bs
    else if m = 2 then brainEvent bs
    else .error .reservedModifier
  | 0x9 => if m = 0 then lenEvent .cmdDecode bs else .error .reservedModifier
  | _ => .error .reservedKind

/-- The first event of a stream and the rest of the stream, or why it is refused. Total on any bytes. Where two
reasons apply, the first one met from the left is reported (DESIGN CHOICE, safe: log entry 13). -/
def decodeEvent (bs : List Byte) : Except RefuseReason (Instr × List Byte) :=
  match bs with
  | [] => .error .truncatedEvent
  | h :: rest => decodeBody (h.toNat / 16) (h.toNat % 16) rest

/-! ### Tag dispatch (41_codec_decode.md R141, R142) -/

/-- Puts a byte before the first field. -/
def consField (b : Byte) : List (List Byte) → List (List Byte)
  | [] => [[b]]
  | f :: fs => (b :: f) :: fs

/-- `split(p, s)`: cut at every `s`, collapse and trim nothing (R141). -/
def split (s : Byte) : List Byte → List (List Byte)
  | [] => [[]]
  | b :: p => if b = s then [] :: split s p else consField b (split s p)

/-- The fields of a payload. -/
def fieldsOf (p : List Byte) : List (List Byte) := split separator p

/-- Puts the separator between fields: what `split` undoes. -/
def joinFields : List (List Byte) → List Byte
  | [] => []
  | [f] => f
  | f :: g :: fs => f ++ separator :: joinFields (g :: fs)

/-- The tag of a field list: exact, case-sensitive equality of the whole first field (R73, R142). -/
def tagOf (F : List (List Byte)) : Tag :=
  if F.head? = some tagWeight then .weight
  else if F.head? = some tagStatus then .status
  else if F.head? = some tagBrain then .brain
  else .unknown

/-- The `payload_tag` row that a payload selects (R142). -/
def decodeTag (p : List Byte) : Instr :=
  match tagOf (fieldsOf p) with
  | .weight => .decodeWeight (fieldsOf p)
  | .status => .decodeStatus (fieldsOf p)
  | .brain => .decodeBrain (fieldsOf p)
  | .unknown => .decodeUnknown p

/-! ### The encoder -/

/-- The bytes of an instruction: an event's bytes (R80, R81), a `payload_tag` row's payload (R71, R142). -/
def encode : Instr → List Byte
  | .reset => [0x10]
  | .rxStart => [0x20, 0x3C]
  | .rxEnd => [0x20, 0x3E]
  | .rxData d => [0x20, d]
  | .cmdTransmit bs => 0x30 :: len16Bytes bs
  | .cmdSendWeight v => 0x40 :: numBytes v
  | .cmdSendStatus t => 0x50 :: len16Bytes t
  | .txWriteOk => [0x60]
  | .txWriteErr => [0x61]
  | .txFlushDone => [0x70]
  | .encodeWeight v => 0x80 :: numBytes v
  | .encodeStatus t => 0x81 :: len16Bytes t
  | .encodeBrain t p v c => 0x82 :: (numBytes t ++ numBytes p ++ numBytes v ++ numBytes c)
  | .cmdDecode p => 0x90 :: len16Bytes p
  | .decodeWeight F => joinFields F
  | .decodeStatus F => joinFields F
  | .decodeBrain F => joinFields F
  | .decodeUnknown p => p

/-- The bytes of a sequence of events, in order. -/
def encodeAll (is : List Instr) : List Byte := is.flatMap encode

/-! ### The rows of spec/opcode_table.json -/

/-- A row's width in bits, its match and its mask, numbered as the table numbers them: the row's bytes, first
byte most significant (R82: the pattern is `H ++ d`). A width of 0 is the row `*`.
DEDUCED, safe: log entry 12. -/
structure OpcodeRow where
  nbits : Nat
  pattern : Nat
  mask : Nat
deriving DecidableEq, Repr

/-- The row of each instruction. -/
def Instr.row : Instr → OpcodeRow
  | .reset => ⟨8, 0x10, 0xFF⟩
  | .rxStart => ⟨16, 0x203C, 0xFFFF⟩
  | .rxEnd => ⟨16, 0x203E, 0xFFFF⟩
  | .rxData _ => ⟨16, 0x2000, 0xFF00⟩
  | .cmdTransmit _ => ⟨8, 0x30, 0xFF⟩
  | .cmdSendWeight _ => ⟨8, 0x40, 0xFF⟩
  | .cmdSendStatus _ => ⟨8, 0x50, 0xFF⟩
  | .txWriteOk => ⟨8, 0x60, 0xFF⟩
  | .txWriteErr => ⟨8, 0x61, 0xFF⟩
  | .txFlushDone => ⟨8, 0x70, 0xFF⟩
  | .encodeWeight _ => ⟨8, 0x80, 0xFF⟩
  | .encodeStatus _ => ⟨8, 0x81, 0xFF⟩
  | .encodeBrain _ _ _ _ => ⟨8, 0x82, 0xFF⟩
  | .cmdDecode _ => ⟨8, 0x90, 0xFF⟩
  | .decodeWeight _ => ⟨48, 0x574549474854, 0xFFFFFFFFFFFF⟩
  | .decodeStatus _ => ⟨48, 0x535441545553, 0xFFFFFFFFFFFF⟩
  | .decodeBrain _ => ⟨40, 0x425241494E, 0xFFFFFFFFFF⟩
  | .decodeUnknown _ => ⟨0, 0, 0⟩

/-- Bytes as one number, first byte most significant. -/
def beValue : List Byte → Nat
  | [] => 0
  | b :: bs => b.toNat * 256 ^ bs.length + beValue bs

/-- The `n` bytes of a number, most significant first. -/
def beBytes : Nat → Nat → List Byte
  | 0, _ => []
  | n + 1, w => beBytes n (w / 256) ++ [BitVec.ofNat 8 (w % 256)]

/-- Whether bytes begin with the bits of a row. -/
def OpcodeRow.matchesBytes (r : OpcodeRow) (bs : List Byte) : Bool :=
  decide (r.nbits ≤ 8 * bs.length) && decide (beValue (bs.take (r.nbits / 8)) &&& r.mask = r.pattern)

/-! ### The host's word for a row (log entries 11 and 12) -/

/-- A row of this width is an event row; the others are `payload_tag` rows. -/
def isEventWidth (nbits : Nat) : Bool := decide (nbits = 8) || decide (nbits = 16)

/-- The row's own bytes and the longest operands that zeros announce (four empty `NUM`s). -/
def wordBytes (nbits w : Nat) : List Byte := beBytes (nbits / 8) w ++ [0, 0, 0, 0]

/-- The instruction the decoder reads from a row's word. A `payload_tag` row's word is a payload that is the tag. -/
def decodeTableWord (nbits w : Nat) : Option Instr :=
  if isEventWidth nbits then
    match decodeEvent (wordBytes nbits w) with
    | .ok (i, _) => some i
    | .error _ => none
  else some (decodeTag (beBytes (nbits / 8) w))

/-- The event that runs a row's word: for an event row its own bytes with zero operands; for a `payload_tag` row the
`CMD_DECODE` event whose payload is the tag. -/
def tableWordEvent (nbits w : Nat) : List Byte :=
  if isEventWidth nbits then
    match decodeEvent (wordBytes nbits w) with
    | .ok (_, rest) => (wordBytes nbits w).take ((wordBytes nbits w).length - rest.length)
    | .error _ => wordBytes nbits w
  else encode (.cmdDecode (beBytes (nbits / 8) w))

end Sys2Proof
end

