-- ==== Sys2Proof/Machine/Operands.lean ====
section
/-! DEFINITION. The values of operands and of payload fields (41_codec_decode.md R160 to R163). -/

namespace Sys2Proof.Machine

/-- The natural number of a run of digits, most significant first. -/
def digitsValue (ds : List (Fin 10)) : Nat := ds.foldl (fun n d => 10 * n + d.val) 0

/-- `s` of R161. -/
def signValue : Option Sign → Rat
  | some .minus => -1
  | _ => 1

/-- `coreValue` (R161): `s × (I + D / 10^k)`, exact, not binary floating point (I3): DEDUCED, log entry 15. -/
def coreValue (d : Decimal) : Rat :=
  signValue d.sign
    * ((digitsValue d.intPart : Rat)
      + (digitsValue (d.frac.getD []) : Rat) / (10 : Rat) ^ (d.frac.getD []).length)

/-- The value of the longest prefix of at most `n` bytes that matches `core`; 0 if none does (R162). -/
def prefixValue (f : List Byte) : Nat → Rat
  | 0 => 0
  | n + 1 =>
    match parseCore (f.take (n + 1)) with
    | some d => coreValue d
    | none => prefixValue f n

/-- `NUM_LENIENT(f)` (R162): the default rule, or an uninterpreted function. -/
def numLenient (c : Config) (f : List Byte) : Rat :=
  match c.numLenient with
  | .longestPrefix => prefixValue f f.length
  | .uninterpreted k => Config.lenientValue k f

/-- `parseNum(f)` (R160). -/
def parseNum (c : Config) (f : List Byte) : Rat :=
  match f with
  | [] => 0
  | b :: bs =>
    match parseCore (b :: bs) with
    | some d => coreValue d
    | none => numLenient c (b :: bs)

/-- `num(F, i)`: a missing numeric field is zero (R163). -/
def numField (c : Config) (F : List (List Byte)) (i : Nat) : Rat :=
  match F[i]? with
  | some f => parseNum c f
  | none => 0

/-- `txt(F, i)`: a missing text field is empty (R163). -/
def textField (F : List (List Byte)) (i : Nat) : List Byte := (F[i]?).getD []

end Sys2Proof.Machine
end

