-- ==== Sys2Proof/Machine/Codec.lean ====
section
/-! DEFINITION. The Frame Codec: rendering and encoding (40_codec_encode.md R100 to R107), decoding
(41_codec_decode.md R140 to R146). Pure functions; only the parameters are read. -/

namespace Sys2Proof.Machine

/-! ### Number rendering (R101) -/

/-- The ASCII digit of a number below 10. -/
def digitAscii (n : Nat) : Byte := BitVec.ofNat 8 (0x30 + n)

/-- Decimal digits of `n`, at most `fuel` of them. -/
def decFuel : Nat → Nat → List Byte
  | 0, _ => []
  | fuel + 1, n => if n < 10 then [digitAscii n] else decFuel fuel (n / 10) ++ [digitAscii (n % 10)]

/-- `dec(n)`: no leading zeros, `dec(0) = "0"`. -/
def dec (n : Nat) : List Byte := decFuel (n + 1) n

/-- `pad(N, s)`. -/
def pad (N : Nat) (s : List Byte) : List Byte := List.replicate (N - s.length) zeroDigit ++ s

/-- `q` of R101: `floor(abs(v) * 10^N + 1/2)`. -/
def scaled (N : Nat) (v : Rat) : Nat := ⌊|v| * (10 : Rat) ^ N + 1 / 2⌋.toNat

/-- `fmt(N, v)`: `N` decimals, rounding half away from zero, `-` iff `v < 0`. -/
def fmt (N : Nat) (v : Rat) : List Byte :=
  (if v < 0 then [minusByte] else []) ++ dec (scaled N v / 10 ^ N) ++ dotByte :: pad N (dec (scaled N v % 10 ^ N))

/-! ### Encoding (R103 to R107) -/

/-- A frame: markers around fields joined by the separator (30_encoding.md R71). -/
def frame (fields : List (List Byte)) : List Byte := startMarker :: joinFields fields ++ [endMarker]

/-- The length check (R103). -/
def sized (c : Config) (f : List Byte) : ResultCode × List Byte :=
  if f.length > c.txCap then (.errOversize, []) else (.ok, f)

/-- The text check (R104). -/
def validText (t : List Byte) : Bool := t.all (fun b => b != startMarker && b != endMarker && b != separator)

/-- `encode(Weight(v))` (R105). -/
def encWeight (c : Config) (v : Rat) : ResultCode × List Byte :=
  sized c (frame [tagWeight, fmt Config.weightDecimals v])

/-- `encode(Status(t))` (R106): the text check comes first. -/
def encStatus (c : Config) (t : List Byte) : ResultCode × List Byte :=
  if validText t then sized c (frame [tagStatus, t]) else (.errText, [])

/-- `encode(BrainSnapshot(t, p, v, i))` (R107). -/
def encBrain (c : Config) (t p v i : Rat) : ResultCode × List Byte :=
  sized c (frame [tagBrain, fmt c.brainTimeDecimals t, fmt Config.pctDecimals p, fmt Config.voltDecimals v,
    fmt Config.currDecimals i])

/-! ### Decoding (R142 to R146) -/

/-- `DECODE_WEIGHT(F)` (R143). -/
def msgWeight (c : Config) (F : List (List Byte)) : Message := .weight (numField c F 1)

/-- `DECODE_STATUS(F)` (R144). -/
def msgStatus (F : List (List Byte)) : Message := .status (textField F 1)

/-- `DECODE_BRAIN(F)` (R145). -/
def msgBrain (c : Config) (F : List (List Byte)) : Message :=
  .brain (numField c F 1) (numField c F 2) (numField c F 3) (numField c F 4)

/-- `DECODE_UNKNOWN(p)` (R146). -/
def msgUnknown (p : List Byte) : Message := .unknown p

/-- `decode(p)` (R142). -/
def decodeMsg (c : Config) (p : List Byte) : Message :=
  match tagOf (fieldsOf p) with
  | .weight => msgWeight c (fieldsOf p)
  | .status => msgStatus (fieldsOf p)
  | .brain => msgBrain c (fieldsOf p)
  | .unknown => msgUnknown p

end Sys2Proof.Machine
end

