-- ==== Sys2Proof/Machine/Queries.lean ====
section
/-! DEFINITION. The encode and decode queries (40_codec_encode.md R105 to R107, 41_codec_decode.md R142 to R146). They are
pure, allowed in any phase (43_transceiver.md R220), and write no block state. -/

namespace Sys2Proof.Machine

/-- Answers an encode query: `EncOut(code, bytes)`. -/
def answerEncode (s : State) (r : ResultCode × List Byte) : Host.Outcome State Fault Refusal :=
  whenEnabled s (.next (emit s (.encOut r.1 r.2)))

/-- Answers a decode query: `DecOut(m)`. -/
def answerDecode (s : State) (m : Message) : Host.Outcome State Fault Refusal :=
  whenEnabled s (.next (emit s (.decOut m)))

/-- ENCODE_WEIGHT (R105). -/
def execEncodeWeight (v : Decimal) (s : State) : Host.Outcome State Fault Refusal :=
  answerEncode s (encWeight s.cfg (coreValue v))

/-- ENCODE_STATUS (R106). -/
def execEncodeStatus (t : List Byte) (s : State) : Host.Outcome State Fault Refusal :=
  answerEncode s (encStatus s.cfg t)

/-- ENCODE_BRAIN (R107). -/
def execEncodeBrain (t p v c : Decimal) (s : State) : Host.Outcome State Fault Refusal :=
  answerEncode s (encBrain s.cfg (coreValue t) (coreValue p) (coreValue v) (coreValue c))

/-- CMD_DECODE (R142). -/
def execCmdDecode (p : List Byte) (s : State) : Host.Outcome State Fault Refusal :=
  answerDecode s (decodeMsg s.cfg p)

/-- DECODE_WEIGHT (R143), the row that `CMD_DECODE` selects by the tag `WEIGHT`. Log entry 11. -/
def execDecodeWeight (F : List (List Byte)) (s : State) : Host.Outcome State Fault Refusal :=
  answerDecode s (msgWeight s.cfg F)

/-- DECODE_STATUS (R144). Log entry 11. -/
def execDecodeStatus (F : List (List Byte)) (s : State) : Host.Outcome State Fault Refusal :=
  answerDecode s (msgStatus F)

/-- DECODE_BRAIN (R145). Log entry 11. -/
def execDecodeBrain (F : List (List Byte)) (s : State) : Host.Outcome State Fault Refusal :=
  answerDecode s (msgBrain s.cfg F)

/-- DECODE_UNKNOWN (R146). Log entry 11. -/
def execDecodeUnknown (p : List Byte) (s : State) : Host.Outcome State Fault Refusal :=
  answerDecode s (msgUnknown p)

end Sys2Proof.Machine
end

