-- ==== Sys2Proof/Machine/Receiver.lean ====
section
/-! DEFINITION. The Bus Receiver State Machine (42_receiver.md R180 to R184). -/

namespace Sys2Proof.Machine

/-- The precondition of every `RX_BYTE` step (R180): the fault records the byte (60_exceptions.md R254). -/
def whenListening (s : State) (d : Byte) (body : Host.Outcome State Fault Refusal) : Host.Outcome State Fault Refusal :=
  whenEnabled s (whenPhase s .idle .rxDuringTx d.toNat body)

/-- Starts a frame; a frame in progress is abandoned silently (R181, 10_state.md R35). -/
def openFrame (s : State) : State := { s with rxState := .acc, rxIdx := 0 }

/-- Emits a completed payload and its message, in this order (R182, 20_memory.md R60). -/
def completeFrame (s : State) (p : List Byte) : State :=
  { s with
    rxState := .idle
    rxIdx := 0
    trace := s.trace ++ [.frameOut p, .msgOut (decodeMsg s.cfg p)] }

/-- Appends a byte to the frame in progress (R183). -/
def appendByte (s : State) (d : Byte) : State :=
  { s with rxBuf := memWrite s.rxBuf s.rxIdx d, rxIdx := s.rxIdx + 1 }

/-- RX_START (R181). -/
def execRxStart (s : State) : Host.Outcome State Fault Refusal :=
  whenListening s startMarker (.next (openFrame s))

/-- RX_END (R182). In IDLE it has no effect (90_conflicts.md, 92_eei_decisions.md D6). -/
def execRxEnd (s : State) : Host.Outcome State Fault Refusal :=
  whenListening s endMarker
    (match s.rxState with
    | .idle => .next s
    | .acc =>
      match readPayload s s.rxIdx with
      | .error f => .fault f
      | .ok p => .next (completeFrame s p))

/-- RX_DATA (R183): appended while there is room, discarded silently when the buffer is full, ignored in IDLE. -/
def execRxData (d : Byte) (s : State) : Host.Outcome State Fault Refusal :=
  whenListening s d
    (match s.rxState with
    | .idle => .next s
    | .acc => .next (if s.rxIdx < s.cfg.rxCap - 1 then appendByte s d else s))

end Sys2Proof.Machine
end

