-- ==== Sys2Proof/Machine/Transceiver.lean ====
section
/-! DEFINITION. The Half-Duplex Transceiver Controller (43_transceiver.md R211 to R216). -/

namespace Sys2Proof.Machine

/-- The check of the three commands: `TX_REENTRY` while a transmission is in flight (R220). -/
def whenNotSending (s : State) (info : Nat) (body : Host.Outcome State Fault Refusal) : Host.Outcome State Fault Refusal :=
  whenEnabled s (whenPhase s .idle .txReentry info body)

/-- The check of a transport response: the fault records the phase (60_exceptions.md R254). -/
def whenAwaiting (s : State) (p : TxPhase) (code : FaultCode) (body : Host.Outcome State Fault Refusal) :
    Host.Outcome State Fault Refusal :=
  whenEnabled s (whenPhase s p code (txPhaseCode s.txPhase) body)

/-- Transmits an encoder's frame, or reports its code with no other effect (R212, R213). -/
def sendEncoded (s : State) (r : ResultCode × List Byte) : State :=
  if r.1 = .ok then start s r.2 else emit s (.result r.1)

/-- CMD_TRANSMIT (R211). -/
def execCmdTransmit (bs : List Byte) (s : State) : Host.Outcome State Fault Refusal :=
  whenNotSending s bs.length (.next (if bs.length > s.cfg.txCap then emit s (.result .errOversize) else start s bs))

/-- CMD_SEND_WEIGHT (R212): the reentry check comes before encoding. -/
def execCmdSendWeight (v : Decimal) (s : State) : Host.Outcome State Fault Refusal :=
  whenNotSending s 0 (.next (sendEncoded s (encWeight s.cfg (coreValue v))))

/-- CMD_SEND_STATUS (R213). -/
def execCmdSendStatus (t : List Byte) (s : State) : Host.Outcome State Fault Refusal :=
  whenNotSending s 0 (.next (sendEncoded s (encStatus s.cfg t)))

/-- The transport took the byte at `tx_pos`. -/
def advance (s : State) : State := { markSent s with txPos := s.txPos + 1 }

/-- TX_WRITE_OK (R214): the next byte is requested, or the flush after the last. -/
def execTxWriteOk (s : State) : Host.Outcome State Fault Refusal :=
  whenAwaiting s .write .unexpectedWriteResp
    (if s.txPos + 1 < s.txLen then
      match readTx s (s.txPos + 1) with
      | .error f => .fault f
      | .ok b => .next (requestByte (advance s) b)
    else .next (requestFlush (advance s)))

/-- The transport failed the byte at `tx_pos`; the position stays. -/
def noteError (s : State) : State := { markDrawn s with txErr := true }

/-- TX_WRITE_ERR (R215): the remaining bytes are not requested; the flush still is. -/
def execTxWriteErr (s : State) : Host.Outcome State Fault Refusal :=
  whenAwaiting s .write .unexpectedWriteResp (.next (requestFlush (noteError s)))

/-- The result of a transmission (R216). -/
def txResult (s : State) : ResultCode := if s.txErr then .errWrite else .ok

/-- The line is released: `Dir(LISTEN)`, then `TX_IDLE`. -/
def releaseTx (s : State) : State := { setDir (settleLine s) .listen with txPhase := .idle }

/-- TX_FLUSH_DONE (R216): the line is released before the result is emitted (20_memory.md R60). -/
def execTxFlushDone (s : State) : Host.Outcome State Fault Refusal :=
  whenAwaiting s .flush .unexpectedFlushDone
    (.next (emit (releaseTx s) (.result (txResult s))))

end Sys2Proof.Machine
end

