-- ==== Sys2Proof/Machine/Dispatch.lean ====
section
/-! DEFINITION. One arm per instruction. -/

namespace Sys2Proof.Machine

def exec (i : Instr) (s : State) : Host.Outcome State Fault Refusal :=
  match i with
  | .reset => Sys2Proof.Machine.execReset s
  | .rxStart => Sys2Proof.Machine.execRxStart s
  | .rxEnd => Sys2Proof.Machine.execRxEnd s
  | .rxData d => Sys2Proof.Machine.execRxData d s
  | .cmdTransmit bs => Sys2Proof.Machine.execCmdTransmit bs s
  | .cmdSendWeight v => Sys2Proof.Machine.execCmdSendWeight v s
  | .cmdSendStatus t => Sys2Proof.Machine.execCmdSendStatus t s
  | .txWriteOk => Sys2Proof.Machine.execTxWriteOk s
  | .txWriteErr => Sys2Proof.Machine.execTxWriteErr s
  | .txFlushDone => Sys2Proof.Machine.execTxFlushDone s
  | .encodeWeight v => Sys2Proof.Machine.execEncodeWeight v s
  | .encodeStatus t => Sys2Proof.Machine.execEncodeStatus t s
  | .encodeBrain t p v c => Sys2Proof.Machine.execEncodeBrain t p v c s
  | .cmdDecode p => Sys2Proof.Machine.execCmdDecode p s
  | .decodeWeight F => Sys2Proof.Machine.execDecodeWeight F s
  | .decodeStatus F => Sys2Proof.Machine.execDecodeStatus F s
  | .decodeBrain F => Sys2Proof.Machine.execDecodeBrain F s
  | .decodeUnknown p => Sys2Proof.Machine.execDecodeUnknown p s

end Sys2Proof.Machine
end

