-- ==== Sys2Proof/Machine/Fetch.lean ====
section
/-! DEFINITION. Taking the next event from the input stream (20_memory.md R59, 60_exceptions.md R255, R256, R258). -/

namespace Sys2Proof.Machine

/-- What the input stream offers a state. -/
inductive Fetched where
  /-- An earlier event was refused (R258). -/
  | afterRefusal (r : RefuseReason)
  /-- A fault is recorded, so no step is enabled (R255). -/
  | afterFault (r : FaultRecord)
  /-- No event has come: the block takes no step (R252, R270). -/
  | idle
  /-- The next event is refused (R258). -/
  | refuse (r : RefuseReason)
  /-- The next event, and the state with its bytes taken off the stream. -/
  | event (i : Instr) (s : State)

/-- Takes the next event. A refusal is decided when the event is decoded, before anything else (R256). -/
def fetch (s : State) : Fetched :=
  match s.refused, s.fault, s.input with
  | some r, _, _ => .afterRefusal r
  | none, some f, _ => .afterFault f
  | none, none, [] => .idle
  | none, none, b :: bs =>
    match decodeEvent (b :: bs) with
    | .error r => .refuse r
    | .ok (i, rest) => .event i (consume s rest)

end Sys2Proof.Machine
end

