-- ==== Sys2Proof/Machine/Step.lean ====
section
/-! DEFINITION. One step: the next event of the input stream, performed atomically (20_memory.md R56, R59). -/

namespace Sys2Proof.Machine

/-- One step. With no event to perform the block does nothing (60_exceptions.md R252, R270): the state stays. -/
def step (s : State) : Host.Outcome State Fault Refusal :=
  match fetch s with
  | .afterRefusal r => .refused (.refusedEvent r)
  | .afterFault r => .fault (.notEnabled r)
  | .idle => .next s
  | .refuse r => .next (markRefused s r)
  | .event i s' => exec i s'

/-- Puts the event of an opcode-table row in front of the input stream, where `step` takes its next event. -/
def State.withFetchWord (s : State) (nbits w : Nat) : State := { s with input := tableWordEvent nbits w ++ s.input }

end Sys2Proof.Machine
end

