-- ==== Sys2Proof/Machine/Asm.lean ====
section
/-! DEFINITION. The event-stream assembly syntax of 30_encoding.md R84 and the pseudo-instructions of R85: the lines, what they
expand to, and reading them from text. A notation only (92_eei_decisions.md D40): no step reads it. -/

namespace Sys2Proof.Machine

/-- A line of the assembly. -/
inductive Asm where
  | reset
  | rx (d : Byte)
  | xmit (s : List Byte)
  | sendWeight (v : Decimal)
  | sendStatus (t : List Byte)
  | wrOk
  | wrErr
  | flushDone
  | encWeight (v : Decimal)
  | encStatus (t : List Byte)
  | encBrain (t p v c : Decimal)
  | decode (p : List Byte)
  | rxs (s : List Byte)
  | wrOkTimes (n : Nat)
  | xmitOk (s : List Byte)
  | sendStatusOk (t : List Byte)
deriving DecidableEq, Repr

/-- The events a line stands for (R84, R85). -/
def expandAsm : Asm → List Instr
  | .reset => [.reset]
  | .rx d => [rxByte d]
  | .xmit s => [.cmdTransmit s]
  | .sendWeight v => [.cmdSendWeight v]
  | .sendStatus t => [.cmdSendStatus t]
  | .wrOk => [.txWriteOk]
  | .wrErr => [.txWriteErr]
  | .flushDone => [.txFlushDone]
  | .encWeight v => [.encodeWeight v]
  | .encStatus t => [.encodeStatus t]
  | .encBrain t p v c => [.encodeBrain t p v c]
  | .decode p => [.cmdDecode p]
  | .rxs s => s.map rxByte
  | .wrOkTimes n => List.replicate n .txWriteOk
  | .xmitOk s => .cmdTransmit s :: (List.replicate s.length .txWriteOk ++ [.txFlushDone])
  | .sendStatusOk t => .cmdSendStatus t :: (List.replicate (9 + t.length) .txWriteOk ++ [.txFlushDone])

/-- The bytes of a line. An operand too long for its length field (a number over 255 bytes, a string over 65535) makes no line:
DESIGN CHOICE, safe, log entry 21. -/
def assemble (a : Asm) : Option (List Byte) :=
  if (expandAsm a).all Instr.wellFormed then some (encodeAll (expandAsm a)) else none

/-! ### Reading a line (R84). What the rule leaves open here is DESIGN CHOICE, safe: log entry 21 -/

/-- The ASCII codes of a text. -/
def ascii (s : String) : List Byte := s.toList.map (fun c => BitVec.ofNat 8 c.toNat)

/-- An ASCII byte. -/
def isAscii (b : Byte) : Bool := decide (b.toNat < 0x80)

/-- A blank: space or tab. -/
def isBlank (b : Byte) : Bool := b == 0x20 || b == 0x09

/-- A byte of a line's name: `a` to `z` and the underscore. -/
def isNameByte (b : Byte) : Bool := (decide (0x61 ≤ b.toNat) && decide (b.toNat ≤ 0x7A)) || b == 0x5F

/-- A byte of a number's text. -/
def isNumberByte (b : Byte) : Bool := (digitOf b).isSome || b == dotByte || b == minusByte || b == plusByte

/-- The value of a hexadecimal digit. -/
def hexValue (b : Byte) : Option Nat :=
  if 0x30 ≤ b.toNat ∧ b.toNat ≤ 0x39 then some (b.toNat - 0x30)
  else if 0x41 ≤ b.toNat ∧ b.toNat ≤ 0x46 then some (b.toNat - 0x37)
  else if 0x61 ≤ b.toNat ∧ b.toNat ≤ 0x66 then some (b.toNat - 0x57)
  else none

/-- The byte of two hexadecimal digits. -/
def hexByte (h l : Byte) : Option Byte :=
  match hexValue h, hexValue l with
  | some x, some y => some (BitVec.ofNat 8 (16 * x + y))
  | _, _ => none

/-- What follows the blanks. -/
def skipBlanks (bs : List Byte) : List Byte := bs.dropWhile isBlank

/-- Nothing more on the line, or a comment from `;` on. -/
def lineEnd (bs : List Byte) : Bool :=
  match skipBlanks bs with
  | [] => true
  | b :: _ => b == 0x3B

/-- An operand that ends its line. -/
def lastOperand {α : Type} : Option (α × List Byte) → Option α
  | some (a, rest) => if lineEnd rest then some a else none
  | none => none

/-- The rest of a string literal after its opening quote: ASCII bytes as they stand, and `\xHH` for any byte (R84). A byte of 0x80
and above, and a backslash that begins no `\xHH`, make no line: DESIGN CHOICE, safe, log entry 21. -/
def readQuoted : List Byte → Option (List Byte × List Byte)
  | [] => none
  | b :: rest =>
    if b = 0x22 then some ([], rest)
    else if b = 0x5C then
      match rest with
      | x :: h :: l :: rest' =>
        match hexByte h l, readQuoted rest' with
        | some c, some (s, tail) => if x = 0x78 then some (c :: s, tail) else none
        | _, _ => none
      | _ => none
    else
      match readQuoted rest with
      | some (s, tail) => if isAscii b then some (b :: s, tail) else none
      | none => none

/-- A string literal. -/
def readString (bs : List Byte) : Option (List Byte × List Byte) :=
  match skipBlanks bs with
  | [] => none
  | b :: rest => if b = 0x22 then readQuoted rest else none

/-- A number: the longest run of its bytes, which must be `core` text. -/
def readNumber (bs : List Byte) : Option (Decimal × List Byte) :=
  match parseCore ((skipBlanks bs).takeWhile isNumberByte) with
  | some d => some (d, (skipBlanks bs).dropWhile isNumberByte)
  | none => none

/-- A number and the comma after it. -/
def readNumberComma (bs : List Byte) : Option (Decimal × List Byte) :=
  match readNumber bs with
  | none => none
  | some (d, rest) =>
    match skipBlanks rest with
    | [] => none
    | b :: rest' => if b = 0x2C then some (d, rest') else none

/-- The operands of `enc_brain`. -/
def readBrain (bs : List Byte) : Option (Asm × List Byte) :=
  match readNumberComma bs with
  | none => none
  | some (t, r1) =>
    match readNumberComma r1 with
    | none => none
    | some (p, r2) =>
      match readNumberComma r2 with
      | none => none
      | some (v, r3) =>
        match readNumber r3 with
        | none => none
        | some (c, r4) => some (.encBrain t p v c, r4)

/-- `0xHH`, or an ASCII byte in single quotes (a byte of 0x80 and above makes no line: log entry 21). -/
def readByte (bs : List Byte) : Option (Byte × List Byte) :=
  match skipBlanks bs with
  | a :: b :: c :: rest =>
    if a = 0x27 ∧ c = 0x27 ∧ isAscii b then some (b, rest)
    else if a = 0x30 ∧ b = 0x78 then
      match rest with
      | l :: rest' =>
        match hexByte c l with
        | some d => some (d, rest')
        | none => none
      | [] => none
    else none
  | _ => none

/-- `*n`, the repetition of `wr_ok`. -/
def readTimes (bs : List Byte) : Option (Nat × List Byte) :=
  match bs with
  | [] => none
  | b :: rest =>
    if b = 0x2A ∧ digitRun rest ≠ [] then some ((digitRun rest).foldl (fun n d => 10 * n + d.val) 0, afterDigits rest)
    else none

/-- A line that has no operand. -/
def plainLine (a : Asm) (rest : List Byte) : Option Asm := if lineEnd rest then some a else none

/-- A line whose operand is a string. -/
def stringLine (mk : List Byte → Asm) (rest : List Byte) : Option Asm := (lastOperand (readString rest)).map mk

/-- A line whose operand is a number. -/
def numberLine (mk : Decimal → Asm) (rest : List Byte) : Option Asm := (lastOperand (readNumber rest)).map mk

/-- The line forms of R84 and R85, by name. -/
def readForm (name rest : List Byte) : Option Asm :=
  if name = ascii "reset" then plainLine .reset rest
  else if name = ascii "rx" then (lastOperand (readByte rest)).map .rx
  else if name = ascii "xmit" then stringLine .xmit rest
  else if name = ascii "send_weight" then numberLine .sendWeight rest
  else if name = ascii "send_status" then stringLine .sendStatus rest
  else if name = ascii "wr_ok" then
    if lineEnd rest then some .wrOk else (lastOperand (readTimes rest)).map .wrOkTimes
  else if name = ascii "wr_err" then plainLine .wrErr rest
  else if name = ascii "flush_done" then plainLine .flushDone rest
  else if name = ascii "enc_weight" then numberLine .encWeight rest
  else if name = ascii "enc_status" then stringLine .encStatus rest
  else if name = ascii "enc_brain" then lastOperand (readBrain rest)
  else if name = ascii "decode" then stringLine .decode rest
  else if name = ascii "rxs" then stringLine .rxs rest
  else if name = ascii "xmit_ok" then stringLine .xmitOk rest
  else if name = ascii "send_status_ok" then stringLine .sendStatusOk rest
  else none

/-- One line of text: nothing for a blank or comment line, one event form otherwise; `none` where it is no line. -/
def readLine (bs : List Byte) : Option (List Asm) :=
  if lineEnd bs then some []
  else
    match readForm ((skipBlanks bs).takeWhile isNameByte) ((skipBlanks bs).dropWhile isNameByte) with
    | some a => some [a]
    | none => none

/-- Assembles lines one after another; one bad line rejects the text. -/
def assembleLines : List Asm → Option (List Byte)
  | [] => some []
  | a :: as =>
    match assemble a, assembleLines as with
    | some bs, some rest => some (bs ++ rest)
    | _, _ => none

/-- The lines of a text, one event a line. -/
def readLines : List (List Byte) → Option (List Asm)
  | [] => some []
  | l :: ls =>
    match readLine l, readLines ls with
    | some a, some as => some (a ++ as)
    | _, _ => none

/-- The bytes of a program's text, lines ended by line feeds (0x0A). -/
def assembleText (bs : List Byte) : Option (List Byte) := (readLines (split 0x0A bs)).bind assembleLines

end Sys2Proof.Machine
end

