-- ==== Sys2Proof/Safety.lean ====
section
/-! DEFINITION. What a run is and when it is accepted (70_reset_and_hazards.md R290), and the invariants of reachable states
(10_state.md R36 to R38, 42_receiver.md R185). -/

namespace Sys2Proof.Machine

/-- Performs a sequence of events in order, stopping at the first fault or refusal (20_memory.md R59). -/
def runEvents : List Instr → State → Host.Outcome State Fault Refusal
  | [], s => .next s
  | i :: is, s =>
    match exec i s with
    | .next s' => runEvents is s'
    | .fault f => .fault f
    | .refused r => .refused r

/-- A run in this state has ended accepted (R290): every event performed, no fault, no refusal, nothing in flight. -/
abbrev Accepted (s : State) : Prop := s.input = [] ∧ s.fault = none ∧ s.refused = none ∧ s.txPhase = .idle

/-- A run whose last state is this one is not over: a transmission is pending on the transport (R290). -/
abbrev NotOver (s : State) : Prop := s.txPhase ≠ .idle

/-! ### Invariants -/

/-- R36. -/
abbrev RxBounded (s : State) : Prop := s.rxIdx ≤ s.cfg.rxCap - 1 ∧ (s.rxState = .idle → s.rxIdx = 0)

/-- R37. -/
abbrev DirMatchesPhase (s : State) : Prop := s.dir = .drive ↔ s.txPhase ≠ .idle

/-- R38, and in `TX_WRITE` a byte is still to be answered (R26). -/
abbrev TxBounded (s : State) : Prop :=
  s.txPos ≤ s.txLen ∧ s.txLen ≤ s.cfg.txCap ∧ (s.txPhase = .write → s.txPos < s.txLen)

/-- Both buffers are in canonical form. -/
abbrev BuffersCanonical (s : State) : Prop := s.rxBuf.wf ∧ s.txBuf.wf

/-- No byte was ever written at or above the reserved slot of `RxBuf`, nor outside `TxBuf` (R30, R31, R51, R52). -/
abbrev BuffersInBounds (s : State) : Prop :=
  (∀ c ∈ s.rxBuf, c.1 < s.cfg.rxCap - 1) ∧ (∀ c ∈ s.txBuf, c.1 < s.cfg.txCap)

/-- Every byte of the frame in progress was written, and none is a marker (R30, R185). -/
abbrev FrameWritten (s : State) : Prop :=
  ∀ i < s.rxIdx, ∃ b, memRead s.rxBuf i = some b ∧ b ≠ startMarker ∧ b ≠ endMarker

/-- Every byte of the transmission was written (R31). -/
abbrev TransmissionWritten (s : State) : Prop := ∀ i < s.txLen, ∃ b, memRead s.txBuf i = some b

/-- The invariant of every state a run reaches. -/
structure Inv (s : State) : Prop where
  legal : s.cfg.legal = true
  rx : RxBounded s
  dir : DirMatchesPhase s
  tx : TxBounded s
  canonical : BuffersCanonical s
  bounds : BuffersInBounds s
  frame : FrameWritten s
  sent : TransmissionWritten s

/-! ### What claims speak of -/

/-- An ordinary byte (30_encoding.md R70). -/
abbrev Ordinary (b : Byte) : Prop := b ≠ startMarker ∧ b ≠ endMarker

/-- The change that `START(bs)` makes between two states (43_transceiver.md R211): the bytes `TX[0..len)` are `bs` and no other
byte of either buffer changes; the fields named are set; nothing else but the model's own record `handed` changes. -/
def Started (s t : State) (bs : List Byte) : Prop :=
  (∀ i, memRead t.txBuf i = if i < bs.length then bs[i]? else memRead s.txBuf i) ∧
    t = { s with
      txBuf := t.txBuf
      txLen := bs.length
      txPos := 0
      txErr := false
      dir := .drive
      txPhase := if bs = [] then .flush else .write
      trace := s.trace ++ .dir .drive :: (match bs with | [] => [.flushReq] | b :: _ => [.txReq b])
      handed := t.handed }

/-- When each event faults in a state with no fault recorded (60_exceptions.md R257). -/
def FaultsWhen : Instr → State → Prop
  | .reset, _ => False
  | .rxStart, s => s.txPhase ≠ .idle
  | .rxEnd, s => s.txPhase ≠ .idle
  | .rxData _, s => s.txPhase ≠ .idle
  | .cmdTransmit _, s => s.txPhase ≠ .idle
  | .cmdSendWeight _, s => s.txPhase ≠ .idle
  | .cmdSendStatus _, s => s.txPhase ≠ .idle
  | .txWriteOk, s => s.txPhase ≠ .write
  | .txWriteErr, s => s.txPhase ≠ .write
  | .txFlushDone, s => s.txPhase ≠ .flush
  | .encodeWeight _, _ => False
  | .encodeStatus _, _ => False
  | .encodeBrain _ _ _ _, _ => False
  | .cmdDecode _, _ => False
  | .decodeWeight _, _ => False
  | .decodeStatus _, _ => False
  | .decodeBrain _, _ => False
  | .decodeUnknown _, _ => False

/-- The three classes of the receive steps. -/
def IsReceive : Instr → Prop
  | .rxStart => True
  | .rxEnd => True
  | .rxData _ => True
  | _ => False

/-- The steps of the transceiver controller (43_transceiver.md sections 2 and 3). -/
def IsTransceiver : Instr → Prop
  | .cmdTransmit _ => True
  | .cmdSendWeight _ => True
  | .cmdSendStatus _ => True
  | .txWriteOk => True
  | .txWriteErr => True
  | .txFlushDone => True
  | _ => False

/-- `r_N(v) = sgn(v) × floor(abs(v) × 10^N + 1/2) / 10^N` (41_codec_decode.md R164). -/
def rounded (N : Nat) (v : Rat) : Rat := SignType.sign v * (⌊|v| * (10 : Rat) ^ N + 1 / 2⌋ : Rat) / (10 : Rat) ^ N

/-- A frame: the two markers around bytes that are none (30_encoding.md R70, R71). -/
def BoundedByMarkers (f : List Byte) : Prop := ∃ mid, f = startMarker :: mid ++ [endMarker] ∧ ∀ b ∈ mid, Ordinary b

/-- `body(f) = f[1..len(f)-1)` (R164). -/
def frameBody (f : List Byte) : List Byte := f.tail.dropLast

end Sys2Proof.Machine
end

