-- ==== Sys2Proof/Certificates/Slice0/Obligations.lean ====
section
/-! DEFINITION. The statements for the provers. Each says in its docstring which rule of spec/ it formalises; where a clause is the
spec's own decision or inference, or the model's choice, the docstring names the decision or the log entry. -/

open Sys2Proof Sys2Proof.Machine

/-! ### Encoding -/

/-- 30_encoding.md Part B (decision D3): the bytes of every well-formed event, with anything after them, decode to that event. -/
def Obligations.EventBytesDecodeBack : Prop :=
  ∀ (i : Instr) (rest : List Byte), i.wellFormed = true → i.isEvent = true →
    decodeEvent (encode i ++ rest) = .ok (i, rest)

/-- 30_encoding.md Part B (decision D3): what decodes is a well-formed event whose bytes were exactly the ones taken. -/
def Obligations.DecodedEventsReencode : Prop :=
  ∀ (bs : List Byte) (i : Instr) (rest : List Byte), decodeEvent bs = .ok (i, rest) →
    i.wellFormed = true ∧ i.isEvent = true ∧ bs = encode i ++ rest

/-- 41_codec_decode.md sections 1 and 2: the payload of a well-formed tag row selects that row, with its fields. -/
def Obligations.TagRowsDecodeBack : Prop :=
  ∀ i : Instr, i.wellFormed = true → i.isEvent = false → decodeTag (encode i) = i

/-- Every payload selects exactly one tag row, well-formed, whose payload it is (41_codec_decode.md sections 1 and 2). -/
def Obligations.EveryPayloadSelectsARow : Prop :=
  ∀ p : List Byte, (decodeTag p).wellFormed = true ∧ (decodeTag p).isEvent = false ∧ encode (decodeTag p) = p

/-- Words written out from 95_test_vectors.md sections 2 and 8 and from the event table of 30_encoding.md Part B (decision D3), at
least one a family, and refusals beside them. -/
def Obligations.VectorWordsDecode : Prop :=
  decodeEvent [0x10] = .ok (.reset, []) ∧
    decodeEvent [0x20, 0x3C] = .ok (.rxStart, []) ∧
    decodeEvent [0x20, 0x7C] = .ok (.rxData 0x7C, []) ∧
    decodeEvent [0x30, 0x03, 0x00, 0x3C, 0x41, 0x3E] = .ok (.cmdTransmit [0x3C, 0x41, 0x3E], []) ∧
    decodeEvent [0x61] = .ok (.txWriteErr, []) ∧
    decodeEvent [0x40, 0x02, 0x2E, 0x35] = .ok (.cmdSendWeight ⟨none, [], some [5]⟩, []) ∧
    decodeEvent [0x80, 0x05, 0x30, 0x2E, 0x30, 0x30, 0x35] = .ok (.encodeWeight ⟨none, [0], some [0, 0, 5]⟩, []) ∧
    decodeEvent [0x81, 0x02, 0x00, 0x6F, 0x6B] = .ok (.encodeStatus [0x6F, 0x6B], []) ∧
    decodeEvent [0x82, 0x01, 0x31, 0x01, 0x32, 0x01, 0x33, 0x01, 0x34] =
      .ok (.encodeBrain ⟨none, [1], none⟩ ⟨none, [2], none⟩ ⟨none, [3], none⟩ ⟨none, [4], none⟩, []) ∧
    decodeEvent [0x90, 0x00, 0x00] = .ok (.cmdDecode [], []) ∧
    decodeEvent [0x62] = .error .reservedModifier ∧
    decodeEvent [0xA0] = .error .reservedKind ∧
    decodeEvent [0x40, 0x03, 0x31, 0x65, 0x33] = .error .badNum ∧
    decodeEvent [0x30, 0x05, 0x00, 0x3C, 0x41] = .error .truncatedEvent

/-- The reserved headers of 30_encoding.md Part B (decision D3): kind 0 and kinds 0xA to 0xF, and every modifier a listed kind
does not list; and no other header is refused as reserved, whatever follows it. -/
def Obligations.ReservedHeadersAreRefused : Prop :=
  ∀ (h : Byte) (rest : List Byte),
    (h.toNat / 16 = 0 ∨ 10 ≤ h.toNat / 16 → decodeEvent (h :: rest) = .error .reservedKind) ∧
      (1 ≤ h.toNat / 16 → h.toNat / 16 ≤ 9 →
        (if h.toNat / 16 = 6 then 1 else if h.toNat / 16 = 8 then 2 else 0) < h.toNat % 16 →
        decodeEvent (h :: rest) = .error .reservedModifier) ∧
      (1 ≤ h.toNat / 16 → h.toNat / 16 ≤ 9 →
        h.toNat % 16 ≤ (if h.toNat / 16 = 6 then 1 else if h.toNat / 16 = 8 then 2 else 0) →
        decodeEvent (h :: rest) ≠ .error .reservedKind ∧ decodeEvent (h :: rest) ≠ .error .reservedModifier)

/-- A stream that ends inside an event is refused (30_encoding.md Part B, decision D3): every proper, non-empty beginning of an
event's bytes. -/
def Obligations.TruncatedEventsAreRefused : Prop :=
  ∀ (i : Instr) (n : Nat), i.wellFormed = true → i.isEvent = true → 0 < n → n < (encode i).length →
    decodeEvent ((encode i).take n) = .error .truncatedEvent

/-- A `NUM` operand that is no `core` text is refused (30_encoding.md Part B, decision D3), whichever of the four operands of
ENCODE_BRAIN it is. Where the stream is also cut short after it, that BAD_NUM is the reason is the model's choice (log entry 13). -/
def Obligations.MalformedNumbersAreRefused : Prop :=
  ∀ (text rest : List Byte), text.length ≤ 255 → parseCore text = none →
    decodeEvent (0x40 :: BitVec.ofNat 8 text.length :: (text ++ rest)) = .error .badNum ∧
      decodeEvent (0x80 :: BitVec.ofNat 8 text.length :: (text ++ rest)) = .error .badNum ∧
      ∀ ds : List Decimal, ds.length < 4 → (∀ d ∈ ds, numOperandOk d = true) →
        decodeEvent (0x82 :: (ds.flatMap numBytes ++ BitVec.ofNat 8 text.length :: (text ++ rest))) = .error .badNum

/-- The grammar `core` (30_encoding.md Part A, decision D14): the parser accepts exactly the texts of well-formed decimals, each
as the one decimal it is the text of. -/
def Obligations.CoreParserAcceptsExactlyCore : Prop :=
  ∀ (bs : List Byte) (d : Decimal), parseCore bs = some d ↔ d.wellFormed = true ∧ bs = d.text

/-! ### The step -/

/-- When the bytes of the input stream begin with an event, a step takes its bytes off the stream and performs it. The stream is the
model's (log entry 2). -/
def Obligations.StepPerformsTheNextEvent : Prop :=
  ∀ (s : State) (i : Instr) (rest : List Byte), s.refused = none → decodeEvent s.input = .ok (i, rest) →
    step s = exec i { s with input := rest }

/-- A refused event sets the mark, with its reason, and gets no step; the run does not go on (60_exceptions.md section 3, decision D3;
log entry 5). With no event to perform the state stays (log entry 2). -/
def Obligations.StepWithoutAnEventToPerform : Prop :=
  (∀ (s : State) (r : RefuseReason), s.refused = none → s.fault = none → s.input ≠ [] →
      decodeEvent s.input = .error r → step s = .next { s with refused := some r }) ∧
    (∀ (s : State) (r : RefuseReason), s.refused = some r → step s = .refused (.refusedEvent r)) ∧
    ∀ s : State, s.refused = none → s.fault = none → s.input = [] → step s = .next s

/-- Once a fault is recorded no step is enabled, RESET included (60_exceptions.md section 2, decision D35; log entry 4). -/
def Obligations.NoStepAfterAFault : Prop :=
  ∀ (s : State) (r : FaultRecord), s.fault = some r →
    (∀ i : Instr, exec i s = .fault (.notEnabled r)) ∧ (s.refused = none → step s = .fault (.notEnabled r))

/-- When an event faults, and that a fault writes `fault` and nothing else (60_exceptions.md section 2). -/
def Obligations.FaultTable : Prop :=
  ∀ (i : Instr) (s t : State), s.fault = none → exec i s = .next t →
    (t.fault ≠ none ↔ FaultsWhen i s) ∧ (t.fault ≠ none → t = { s with fault := t.fault })

/-- In a state that meets the invariant and has no fault recorded, every instruction answers a next state: no read fails. -/
def Obligations.EveryInstructionCompletes : Prop :=
  ∀ (i : Instr) (s : State), Inv s → s.fault = none → ∃ t, exec i s = .next t

/-! ### Power-on and RESET -/

/-- The power-on state (10_state.md section 8, decision D27). The parameters are the model's
(log entry 1). -/
def Obligations.PowerOnState : Prop :=
  State.reset.rxState = .idle ∧ State.reset.rxIdx = 0 ∧ State.reset.dir = .listen ∧ State.reset.txPhase = .idle ∧
    State.reset.txLen = 0 ∧ State.reset.txPos = 0 ∧ State.reset.txErr = false ∧ State.reset.fault = none ∧
    State.reset.refused = none ∧ statusWord State.reset = 0x00000000 ∧ txStatWord State.reset = 0x00000000 ∧
    deLevel State.reset = false

/-- The invariant holds at power-on (10_state.md sections 7 and 8). That the parameters are legal and no buffer byte is written there
is the model's choice of `State.reset` (log entries 1 and 6). -/
def Obligations.InvariantAtPowerOn : Prop := Inv State.reset

/-- RESET (70_reset_and_hazards.md section 1, decision D27): the fields it writes and, by the equation, that nothing else changes but
the model's own record of the line (log entry 10), which changes only if bytes were handed over. The buffers keep their contents
(section 1; log entry 6). -/
def Obligations.ResetReturnsToPowerOn : Prop :=
  ∀ s : State, s.fault = none → ∃ l d, (s.handed = [] → l = s.line ∧ d = s.draws) ∧
    exec .reset s = .next { s with
      rxState := .idle
      rxIdx := 0
      dir := .listen
      txPhase := .idle
      txLen := 0
      txPos := 0
      txErr := false
      trace := s.trace ++ (if s.dir = .drive then [.dir .listen] else [])
      handed := []
      line := l
      draws := d }

/-- A transport response that arrives after a RESET faults (70_reset_and_hazards.md section 1, decision D27). -/
def Obligations.LateResponsesAfterResetFault : Prop :=
  ∀ s t : State, exec .reset s = .next t →
    exec .txWriteOk t = .next { t with fault := some ⟨.unexpectedWriteResp, 0⟩ } ∧
      exec .txWriteErr t = .next { t with fault := some ⟨.unexpectedWriteResp, 0⟩ } ∧
      exec .txFlushDone t = .next { t with fault := some ⟨.unexpectedFlushDone, 0⟩ }

/-! ### The receiver -/

/-- RX_START (42_receiver.md R181, with the precondition of section 1). -/
def Obligations.RxStartOpensAFrame : Prop :=
  ∀ s : State, s.fault = none →
    (s.txPhase = .idle → exec .rxStart s = .next { s with rxState := .acc, rxIdx := 0 }) ∧
      (s.txPhase ≠ .idle → exec .rxStart s = .next { s with fault := some ⟨.rxDuringTx, 0x3C⟩ })

/-- RX_END (42_receiver.md section 2, decisions D6, D8, D32): the payload is the `rx_idx` bytes the buffer holds, lowest index first;
one that nothing has written, which no run reads, would be the free value of log entry 6. -/
def Obligations.RxEndCompletesAFrame : Prop :=
  ∀ (s : State) (p : List Byte), s.fault = none → p = (List.range s.rxIdx).map (memByte .rx s.rxBuf) →
    (s.txPhase = .idle → s.rxState = .idle → exec .rxEnd s = .next s) ∧
      (s.txPhase = .idle → s.rxState = .acc → s.rxIdx ≤ s.cfg.rxCap →
        exec .rxEnd s = .next { s with
          rxState := .idle
          rxIdx := 0
          trace := s.trace ++ [.frameOut p, .msgOut (decodeMsg s.cfg p)] }) ∧
      (s.txPhase ≠ .idle → exec .rxEnd s = .next { s with fault := some ⟨.rxDuringTx, 0x3E⟩ })

/-- RX_DATA (42_receiver.md section 2, decisions D7, D30): stored at `rx_idx`, every other byte of the buffer as before; dropped
when the buffer is full; ignored in IDLE. -/
def Obligations.RxDataStoresOrDrops : Prop :=
  ∀ (s : State) (d : Byte), s.fault = none →
    (s.txPhase = .idle → s.rxState = .acc → s.rxIdx < s.cfg.rxCap - 1 →
        ∃ t, exec (.rxData d) s = .next t ∧
          (∀ i, memRead t.rxBuf i = if i = s.rxIdx then some d else memRead s.rxBuf i) ∧
          t = { s with rxBuf := t.rxBuf, rxIdx := s.rxIdx + 1 }) ∧
      (s.txPhase = .idle → s.rxState = .acc → s.cfg.rxCap - 1 ≤ s.rxIdx → exec (.rxData d) s = .next s) ∧
      (s.txPhase = .idle → s.rxState = .idle → exec (.rxData d) s = .next s) ∧
      (s.txPhase ≠ .idle → exec (.rxData d) s = .next { s with fault := some ⟨.rxDuringTx, d.toNat⟩ })

/-- A frame of any ordinary bytes, fed byte by byte from any receiver state, yields exactly its first `RX_CAP - 1` bytes as one
payload, then its message (42_receiver.md section 3, inference of the spec). A frame in progress before it leaves no trace. -/
def Obligations.FrameIsReceivedByteByByte : Prop :=
  ∀ (s : State) (bs : List Byte), s.fault = none → s.txPhase = .idle → (∀ b ∈ bs, Ordinary b) →
    ∃ t, runEvents (expandAsm (.rxs (startMarker :: bs ++ [endMarker]))) s = .next t ∧
      (∀ i, memRead t.rxBuf i = if i < min bs.length (s.cfg.rxCap - 1) then bs[i]? else memRead s.rxBuf i) ∧
      t = { s with
        rxState := .idle
        rxIdx := 0
        rxBuf := t.rxBuf
        trace := s.trace ++ [.frameOut (bs.take (s.cfg.rxCap - 1)),
          .msgOut (decodeMsg s.cfg (bs.take (s.cfg.rxCap - 1)))] }

/-- Every payload emitted in a state a run can reach is at most `RX_CAP - 1` bytes and holds no marker (42_receiver.md section 3,
inference of the spec); no other instruction emits one. -/
def Obligations.PayloadsAreBoundedAndClean : Prop :=
  ∀ (i : Instr) (s t : State) (p : List Byte), Inv s → exec i s = .next t →
    (∃ es, t.trace = s.trace ++ es ∧ .frameOut p ∈ es) →
    i = .rxEnd ∧ p.length ≤ s.cfg.rxCap - 1 ∧ ∀ b ∈ p, Ordinary b

/-- A snapshot message is emitted only where a frame with the tag BRAIN completes (60_exceptions.md section 4, inference of the
spec). -/
def Obligations.SnapshotsComeFromBrainFrames : Prop :=
  ∀ (i : Instr) (s t : State) (a b c d : Rat), exec i s = .next t →
    (∃ es, t.trace = s.trace ++ es ∧ .msgOut (.brain a b c d) ∈ es) →
    i = .rxEnd ∧ s.rxState = .acc ∧ ∃ p, t.trace = s.trace ++ [.frameOut p, .msgOut (.brain a b c d)] ∧
      firstField p = tagBrain

/-! ### The transceiver controller -/

/-- CMD_TRANSMIT (43_transceiver.md section 2, decisions D20, D23). -/
def Obligations.TransmitStartsOrRefuses : Prop :=
  ∀ (s : State) (bs : List Byte), s.fault = none →
    (s.txPhase = .idle → bs.length ≤ s.cfg.txCap →
        ∃ t, exec (.cmdTransmit bs) s = .next t ∧ Started s t bs) ∧
      (s.txPhase = .idle → s.cfg.txCap < bs.length →
        exec (.cmdTransmit bs) s = .next { s with trace := s.trace ++ [.result .errOversize] }) ∧
      (s.txPhase ≠ .idle → exec (.cmdTransmit bs) s = .next { s with fault := some ⟨.txReentry, bs.length⟩ })

/-- CMD_SEND_WEIGHT (43_transceiver.md R212). -/
def Obligations.SendWeightTransmitsTheFrame : Prop :=
  ∀ (s : State) (v : Decimal) (f : List Byte), s.fault = none →
    f = [0x3C] ++ tagWeight ++ [0x7C] ++ fmt 2 (coreValue v) ++ [0x3E] →
    (s.txPhase = .idle → f.length ≤ s.cfg.txCap →
        ∃ t, exec (.cmdSendWeight v) s = .next t ∧ Started s t f) ∧
      (s.txPhase = .idle → s.cfg.txCap < f.length →
        exec (.cmdSendWeight v) s = .next { s with trace := s.trace ++ [.result .errOversize] }) ∧
      (s.txPhase ≠ .idle → exec (.cmdSendWeight v) s = .next { s with fault := some ⟨.txReentry, 0⟩ })

/-- CMD_SEND_STATUS (43_transceiver.md section 2, decision D19): the text check comes before the length check (decision D26). -/
def Obligations.SendStatusTransmitsTheFrame : Prop :=
  ∀ (s : State) (x f : List Byte), s.fault = none →
    f = [0x3C] ++ tagStatus ++ [0x7C] ++ x ++ [0x3E] →
    (s.txPhase = .idle → (∃ b ∈ x, b = 0x3C ∨ b = 0x3E ∨ b = 0x7C) →
        exec (.cmdSendStatus x) s = .next { s with trace := s.trace ++ [.result .errText] }) ∧
      (s.txPhase = .idle → (∀ b ∈ x, b ≠ 0x3C ∧ b ≠ 0x3E ∧ b ≠ 0x7C) → s.cfg.txCap < f.length →
        exec (.cmdSendStatus x) s = .next { s with trace := s.trace ++ [.result .errOversize] }) ∧
      (s.txPhase = .idle → (∀ b ∈ x, b ≠ 0x3C ∧ b ≠ 0x3E ∧ b ≠ 0x7C) → f.length ≤ s.cfg.txCap →
        ∃ t, exec (.cmdSendStatus x) s = .next t ∧ Started s t f) ∧
      (s.txPhase ≠ .idle → exec (.cmdSendStatus x) s = .next { s with fault := some ⟨.txReentry, 0⟩ })

/-- TX_WRITE_OK (43_transceiver.md R214): the byte requested is the one the buffer holds. Only the model's own record `handed` is left
open (log entry 9). -/
def Obligations.WriteOkRequestsTheNextByte : Prop :=
  ∀ s : State, s.fault = none →
    (s.txPhase = .write → s.txPos + 1 < s.txLen → s.txPos + 1 < s.cfg.txCap →
        ∃ h, exec .txWriteOk s = .next { s with
          txPos := s.txPos + 1
          trace := s.trace ++ [.txReq (memByte .tx s.txBuf (s.txPos + 1))]
          handed := h }) ∧
      (s.txPhase = .write → s.txLen ≤ s.txPos + 1 →
        ∃ h, exec .txWriteOk s = .next { s with
          txPos := s.txPos + 1
          txPhase := .flush
          trace := s.trace ++ [.flushReq]
          handed := h }) ∧
      (s.txPhase ≠ .write →
        exec .txWriteOk s = .next { s with fault := some ⟨.unexpectedWriteResp, txPhaseCode s.txPhase⟩ })

/-- TX_WRITE_ERR (43_transceiver.md section 3, decision D21). The model's own record is left open (log entry 9). -/
def Obligations.WriteErrFlushesAtOnce : Prop :=
  ∀ s : State, s.fault = none →
    (s.txPhase = .write →
        ∃ h d, exec .txWriteErr s = .next { s with
          txErr := true
          txPhase := .flush
          trace := s.trace ++ [.flushReq]
          handed := h
          draws := d }) ∧
      (s.txPhase ≠ .write →
        exec .txWriteErr s = .next { s with fault := some ⟨.unexpectedWriteResp, txPhaseCode s.txPhase⟩ })

/-- TX_FLUSH_DONE (43_transceiver.md section 3): the line is released, then the result is emitted; `tx_err` keeps its value. The
model's own record is left open (log entry 9). -/
def Obligations.FlushDoneReleasesTheLine : Prop :=
  ∀ s : State, s.fault = none →
    (s.txPhase = .flush →
        ∃ l, exec .txFlushDone s = .next { s with
          dir := .listen
          txPhase := .idle
          trace := s.trace ++ [.dir .listen, .result (if s.txErr then .errWrite else .ok)]
          handed := []
          line := l }) ∧
      (s.txPhase ≠ .flush →
        exec .txFlushDone s = .next { s with fault := some ⟨.unexpectedFlushDone, txPhaseCode s.txPhase⟩ })

/-- A transmission the transport completes without error emits exactly this trace, leaves the line in listen mode and the receiver
alone, and puts every byte on the line in order (43_transceiver.md section 4, inference of the spec; the line is the model's record,
log entry 9). -/
def Obligations.CompletedTransmissionTrace : Prop :=
  ∀ (s : State) (bs : List Byte), s.fault = none → s.txPhase = .idle → s.handed = [] → bs.length ≤ s.cfg.txCap →
    ∃ t, runEvents (expandAsm (.xmitOk bs)) s = .next t ∧
      (∀ i, memRead t.txBuf i = if i < bs.length then bs[i]? else memRead s.txBuf i) ∧
      t = { s with
        txBuf := t.txBuf
        txLen := bs.length
        txPos := bs.length
        txErr := false
        dir := .listen
        trace := s.trace ++ .dir .drive :: bs.map .txReq ++ [.flushReq, .dir .listen, .result .ok]
        line := s.line ++ bs.map (fun b => ⟨b, .sent⟩) }

/-- A transmission whose byte `k` fails: the later bytes are never requested, the flush and the release still happen, and whether the
failed byte was on the line is a fresh draw (43_transceiver.md section 4, inference of the spec; log entry 9). -/
def Obligations.FailedTransmissionTrace : Prop :=
  ∀ (s : State) (bs : List Byte) (k : Nat) (b : Byte), s.fault = none → s.txPhase = .idle → s.handed = [] →
    bs.length ≤ s.cfg.txCap → bs[k]? = some b →
    ∃ t, runEvents (.cmdTransmit bs :: List.replicate k .txWriteOk ++ [.txWriteErr, .txFlushDone]) s = .next t ∧
      (∀ i, memRead t.txBuf i = if i < bs.length then bs[i]? else memRead s.txBuf i) ∧
      t = { s with
        txBuf := t.txBuf
        txLen := bs.length
        txPos := k
        txErr := true
        dir := .listen
        trace := s.trace ++ .dir .drive :: (bs.take (k + 1)).map .txReq
          ++ [.flushReq, .dir .listen, .result .errWrite]
        line := s.line ++ (bs.take k).map (fun b => ⟨b, .sent⟩) ++ [⟨b, .draw s.draws⟩]
        draws := s.draws + 1 }

/-- What the line carried (43_transceiver.md section 4, decision D22; log entries 9 and 10): bytes sent are on it in order, and of a
byte of a draw both outcomes are open, each under the free value that says so. A RESET in mid-transmission makes every byte handed
over a draw. -/
def Obligations.DrawsDecideWhatTheLineCarried : Prop :=
  (∀ (xs : List LineByte) (b : Byte) (k : Nat),
      lineCarried (xs ++ [⟨b, .sent⟩]) = lineCarried xs ++ [b] ∧
        lineCarried (xs ++ [⟨b, .draw k⟩]) = lineCarried xs ++ (if Config.lineDraw k then [b] else [])) ∧
    ∀ s t : State, exec .reset s = .next t →
      ∃ cut : List LineByte, t.line = s.line ++ cut ∧ cut.map LineByte.byte = s.handed.map LineByte.byte ∧
        t.draws = s.draws + s.handed.length ∧
        ∀ (j : Nat) (x : LineByte), cut[j]? = some x → x.fate = .draw (s.draws + j)

/-- Under the transport's duty every transmission ends in listen mode (70_reset_and_hazards.md section 5, inference of the spec), from
any state that meets the invariant: with every byte still owed answered TX_WRITE_OK and then the flush; with `j` of them answered
TX_WRITE_OK, the next TX_WRITE_ERR, and then the flush; and with the flush alone where it is what is owed. -/
def Obligations.AnsweredTransmissionsEnd : Prop :=
  ∀ s : State, Inv s → s.fault = none →
    (s.txPhase = .write →
        ∃ t, runEvents (List.replicate (s.txLen - s.txPos) .txWriteOk ++ [.txFlushDone]) s = .next t ∧
          t.dir = .listen ∧ t.txPhase = .idle ∧ t.txPos = s.txLen ∧ t.fault = none) ∧
      (s.txPhase = .write → ∀ j, j < s.txLen - s.txPos →
        ∃ t, runEvents (List.replicate j .txWriteOk ++ [.txWriteErr, .txFlushDone]) s = .next t ∧
          t.dir = .listen ∧ t.txPhase = .idle ∧ t.txPos = s.txPos + j ∧ t.fault = none ∧
          ∃ es, t.trace = s.trace ++ es ++ [.flushReq, .dir .listen, .result .errWrite]) ∧
      (s.txPhase = .flush →
        ∃ t, runEvents [.txFlushDone] s = .next t ∧ t.dir = .listen ∧ t.txPhase = .idle ∧ t.fault = none)

/-- Who writes the direction line (10_state.md section 3): only the transceiver steps and reset. -/
def Obligations.DirectionHasOneOwner : Prop :=
  ∀ (i : Instr) (s t : State), exec i s = .next t → ¬ IsTransceiver i → i ≠ .reset → t.dir = s.dir

/-- The line returns to listen mode only by TX_FLUSH_DONE and RESET, and is driven only by an accepted command (43_transceiver.md
sections 3 and 4, inferences of the spec). -/
def Obligations.LineChangesOnlyWhereStated : Prop :=
  ∀ (i : Instr) (s t : State), exec i s = .next t →
    (s.dir = .drive → t.dir = .listen → i = .txFlushDone ∨ i = .reset) ∧
      (s.dir = .listen → t.dir = .drive →
        (∃ bs, i = .cmdTransmit bs) ∨ (∃ v, i = .cmdSendWeight v) ∨ (∃ x, i = .cmdSendStatus x))

/-- Receive steps leave the transmit side alone and transceiver steps the receive side (10_state.md section 2, 42_receiver.md and
43_transceiver.md section 2). -/
def Obligations.ReceiverAndTransceiverAreSeparate : Prop :=
  ∀ (i : Instr) (s t : State), exec i s = .next t →
    (¬ IsReceive i → i ≠ .reset → t.rxState = s.rxState ∧ t.rxIdx = s.rxIdx ∧ t.rxBuf = s.rxBuf) ∧
      (¬ IsTransceiver i → i ≠ .reset →
        t.txPhase = s.txPhase ∧ t.txLen = s.txLen ∧ t.txPos = s.txPos ∧ t.txErr = s.txErr ∧ t.txBuf = s.txBuf)

/-! ### The Frame Codec -/

/-- ENCODE_WEIGHT (40_codec_encode.md R105). -/
def Obligations.EncodeWeightAnswers : Prop :=
  ∀ (s : State) (v : Decimal) (f : List Byte), s.fault = none →
    f = [0x3C] ++ tagWeight ++ [0x7C] ++ fmt 2 (coreValue v) ++ [0x3E] →
    exec (.encodeWeight v) s = .next { s with
      trace := s.trace ++ [if f.length > s.cfg.txCap then .encOut .errOversize [] else .encOut .ok f] }

/-- ENCODE_STATUS (40_codec_encode.md section 2, with the text check of section 1, decision D19). -/
def Obligations.EncodeStatusAnswers : Prop :=
  ∀ (s : State) (x f : List Byte), s.fault = none →
    f = [0x3C] ++ tagStatus ++ [0x7C] ++ x ++ [0x3E] →
    exec (.encodeStatus x) s = .next { s with
      trace := s.trace ++ [if ∃ b ∈ x, b = 0x3C ∨ b = 0x3E ∨ b = 0x7C then .encOut .errText []
        else if f.length > s.cfg.txCap then .encOut .errOversize [] else .encOut .ok f] }

/-- ENCODE_BRAIN (40_codec_encode.md section 2, decision D18). -/
def Obligations.EncodeBrainAnswers : Prop :=
  ∀ (s : State) (t p v c : Decimal) (f : List Byte), s.fault = none →
    f = [0x3C] ++ tagBrain ++ [0x7C] ++ fmt s.cfg.brainTimeDecimals (coreValue t) ++ [0x7C] ++ fmt 1 (coreValue p)
      ++ [0x7C] ++ fmt 2 (coreValue v) ++ [0x7C] ++ fmt 2 (coreValue c) ++ [0x3E] →
    exec (.encodeBrain t p v c) s = .next { s with
      trace := s.trace ++ [if f.length > s.cfg.txCap then .encOut .errOversize [] else .encOut .ok f] }

/-- CMD_DECODE (41_codec_decode.md R142): the message that the tag dispatch gives, in any phase, and no state written. -/
def Obligations.CmdDecodeAnswers : Prop :=
  ∀ (s : State) (p : List Byte), s.fault = none →
    exec (.cmdDecode p) s = .next { s with
      trace := s.trace ++ [.decOut (
        if firstField p = tagWeight then .weight (numField s.cfg (fieldsOf p) 1)
        else if firstField p = tagStatus then .status (textField (fieldsOf p) 1)
        else if firstField p = tagBrain then .brain (numField s.cfg (fieldsOf p) 1) (numField s.cfg (fieldsOf p) 2)
          (numField s.cfg (fieldsOf p) 3) (numField s.cfg (fieldsOf p) 4)
        else .unknown p)] }

/-- The four tag rows as instructions of their own: each answers its message as a decode query. That the answer goes to `DecOut` is
the model's choice (log entry 11). -/
def Obligations.TagRowsAnswer : Prop :=
  ∀ (s : State) (F : List (List Byte)) (p : List Byte), s.fault = none →
    exec (.decodeWeight F) s = .next { s with trace := s.trace ++ [.decOut (.weight (numField s.cfg F 1))] } ∧
      exec (.decodeStatus F) s = .next { s with trace := s.trace ++ [.decOut (.status (textField F 1))] } ∧
      exec (.decodeBrain F) s = .next { s with
        trace := s.trace ++ [.decOut (.brain (numField s.cfg F 1) (numField s.cfg F 2) (numField s.cfg F 3)
          (numField s.cfg F 4))] } ∧
      exec (.decodeUnknown p) s = .next { s with trace := s.trace ++ [.decOut (.unknown p)] }

/-- CMD_DECODE does what the row its payload selects does (41_codec_decode.md section 2; log entry 11). -/
def Obligations.CmdDecodeRunsTheSelectedRow : Prop :=
  ∀ (s : State) (p : List Byte), exec (.cmdDecode p) s = exec (decodeTag p) s

/-- `fmt` (40_codec_encode.md section 1, decision D17) in the form `render` of 30_encoding.md Part A: a sign iff the value is
negative, an integer part without leading zeros, a point, exactly `N` decimals, and digits whose number is the rounded one. -/
def Obligations.RenderedNumberShape : Prop :=
  ∀ (N : Nat) (v : Rat), 1 ≤ N → ∃ ip fp : List (Fin 10),
    fmt N v = (if v < 0 then [minusByte] else []) ++ ip.map digitByte ++ dotByte :: fp.map digitByte ∧
      fp.length = N ∧ ip ≠ [] ∧ (ip.head? = some 0 → ip = [0]) ∧
      (digitsValue (ip ++ fp) : Int) = ⌊|v| * (10 : Rat) ^ N + 1 / 2⌋

/-- Every rendered number is `core` text whose value is the number rounded half away from zero (41_codec_decode.md section 3,
inference of the spec). -/
def Obligations.RenderedNumberParsesBack : Prop :=
  ∀ (c : Config) (N : Nat) (v : Rat), 1 ≤ N → parseNum c (fmt N v) = rounded N v

/-- Round trip (41_codec_decode.md section 3, inference of the spec): decoding the body of an encoded message gives the message, up
to the rounding of its fields. -/
def Obligations.CodecRoundTrip : Prop :=
  ∀ c : Config, c.legal = true →
    (∀ (v : Rat) (f : List Byte), encWeight c v = (.ok, f) → decodeMsg c (frameBody f) = .weight (rounded 2 v)) ∧
      (∀ x f : List Byte, encStatus c x = (.ok, f) → decodeMsg c (frameBody f) = .status x) ∧
      ∀ (t p v i : Rat) (f : List Byte), encBrain c t p v i = (.ok, f) →
        decodeMsg c (frameBody f) =
          .brain (rounded c.brainTimeDecimals t) (rounded 1 p) (rounded 2 v) (rounded 2 i)

/-- End to end: the bytes of an encoded Status frame, fed to a listening receiver whose buffer has room, emit that text (40_codec_encode.md
section 2, 42_receiver.md section 3, 41_codec_decode.md section 3). -/
def Obligations.EncodedStatusIsReceived : Prop :=
  ∀ (s : State) (c : Config) (x f : List Byte), s.fault = none → s.txPhase = .idle → encStatus c x = (.ok, f) →
    f.length ≤ s.cfg.rxCap + 1 →
    ∃ t, runEvents (expandAsm (.rxs f)) s = .next t ∧
      t.trace = s.trace ++ [.frameOut (frameBody f), .msgOut (.status x)] ∧ t.rxState = .idle

/-- When the encoder answers a frame, and that the frame has the length of 40_codec_encode.md section 2 (inference of the spec), fits the
transmit buffer, is bounded by the markers and holds none inside: for each of the three messages. -/
def Obligations.EncodedFramesAreBounded : Prop :=
  ∀ (c : Config) (v t p u i : Rat) (x : List Byte) (nb : Nat),
    nb = 11 + (fmt c.brainTimeDecimals t).length + (fmt 1 p).length + (fmt 2 u).length + (fmt 2 i).length →
    ((encWeight c v).1 = .ok ↔ 9 + (fmt 2 v).length ≤ c.txCap) ∧
      ((encStatus c x).1 = .ok ↔ (∀ b ∈ x, b ≠ 0x3C ∧ b ≠ 0x3E ∧ b ≠ 0x7C) ∧ 9 + x.length ≤ c.txCap) ∧
      ((encBrain c t p u i).1 = .ok ↔ nb ≤ c.txCap) ∧
      (∀ f, encWeight c v = (.ok, f) →
        f.length = 9 + (fmt 2 v).length ∧ f.length ≤ c.txCap ∧ BoundedByMarkers f) ∧
      (∀ f, encStatus c x = (.ok, f) → f.length = 9 + x.length ∧ f.length ≤ c.txCap ∧ BoundedByMarkers f) ∧
      (∀ f, encBrain c t p u i = (.ok, f) → f.length = nb ∧ f.length ≤ c.txCap ∧ BoundedByMarkers f)

/-- Field splitting (41_codec_decode.md section 1, decision D10): one field more than separators, no field holds one, and joining
the fields gives the payload back: nothing is collapsed or trimmed. -/
def Obligations.SplittingLosesNothing : Prop :=
  ∀ p : List Byte, (fieldsOf p).length = 1 + p.count separator ∧ (∀ f ∈ fieldsOf p, separator ∉ f) ∧
    joinFields (fieldsOf p) = p

/-- Numeric fields (41_codec_decode.md section 1, decision D14): missing and empty fields are zero, `core` text has its exact value, and
every other field the value of NUM_LENIENT, which under its default is that of the longest `core` prefix, or zero. -/
def Obligations.NumericFieldValues : Prop :=
  (∀ (c : Config) (F : List (List Byte)) (i : Nat),
      (F.length ≤ i → numField c F i = 0) ∧ (F[i]? = some [] → numField c F i = 0) ∧
        (∀ d : Decimal, d.wellFormed = true → F[i]? = some d.text → numField c F i = coreValue d) ∧
        (∀ f, F[i]? = some f → f ≠ [] → parseCore f = none → numField c F i = numLenient c f)) ∧
    ∀ (c : Config) (f : List Byte), c.numLenient = .longestPrefix →
      (∀ (n : Nat) (d : Decimal), n ≤ f.length → parseCore (f.take n) = some d →
          (∀ m, n < m → m ≤ f.length → parseCore (f.take m) = none) → numLenient c f = coreValue d) ∧
        ((∀ n ≤ f.length, parseCore (f.take n) = none) → numLenient c f = 0)

/-! ### Whole-machine rules -/

/-- Every step keeps the invariant: the bounds of 10_state.md section 7 (inferences of the spec), both buffers in canonical form
and within bounds, and every byte a later read needs written. -/
def Obligations.StepKeepsTheInvariant : Prop :=
  ∀ s t : State, Inv s → step s = .next t → Inv t

/-- A run never stops from a state that meets the invariant, with no fault and no refusal recorded: every step answers a next state. That
it does so on an empty input (the state stays) and on a refused event (the mark is set) is the model's choice (log entries 2 and 5). -/
def Obligations.ReachableStepsAnswer : Prop :=
  ∀ s : State, Inv s → s.fault = none → s.refused = none → ∃ t, step s = .next t

/-- The parameters are read-only: no event writes them (10_state.md R34). -/
def Obligations.NoEventWritesTheParameters : Prop :=
  (∀ (i : Instr) (s t : State), exec i s = .next t → t.cfg = s.cfg) ∧
    ∀ s t : State, step s = .next t → t.cfg = s.cfg

/-- The output trace only grows: it is the concatenation of what each step emits (20_memory.md section 5). -/
def Obligations.OutputTraceOnlyGrows : Prop :=
  ∀ s t : State, step s = .next t → ∃ es, t.trace = s.trace ++ es

/-- The encode and decode queries write no state: they emit one answer, in any phase (43_transceiver.md section 4, decision D34). -/
def Obligations.QueriesWriteNoState : Prop :=
  ∀ (i : Instr) (s : State), s.fault = none → ¬ IsReceive i → ¬ IsTransceiver i → i ≠ .reset →
    ∃ e, exec i s = .next { s with trace := s.trace ++ [e] } ∧
      ((∃ code bytes, e = .encOut code bytes ∧ bytes.length ≤ s.cfg.txCap) ∨ ∃ m, e = .decOut m)

/-- The fields of STATUS and TXSTAT and the level of `de` (10_state.md sections 3 and 5, decisions D28, D29). An index or a length
above 16 bits, which no run reaches, shows its low bits: the model's reading (log entry 17). -/
def Obligations.StatusViewFields : Prop :=
  ∀ s : State,
    (statusWord s).extractLsb' 0 1 = BitVec.ofNat 1 (rxStateCode s.rxState) ∧
      (statusWord s).extractLsb' 1 1 = BitVec.ofNat 1 (dirCode s.dir) ∧
      (statusWord s).extractLsb' 2 2 = BitVec.ofNat 2 (txPhaseCode s.txPhase) ∧
      (statusWord s).extractLsb' 2 2 ≠ 3 ∧
      (statusWord s).extractLsb' 4 1 = BitVec.ofBool s.txErr ∧
      (statusWord s).extractLsb' 5 11 = 0 ∧
      (statusWord s).extractLsb' 16 16 = BitVec.ofNat 16 s.rxIdx ∧
      (txStatWord s).extractLsb' 0 16 = BitVec.ofNat 16 s.txLen ∧
      (txStatWord s).extractLsb' 16 16 = BitVec.ofNat 16 s.txPos ∧
      (deLevel s = true ↔ (s.cfg.deActiveHigh = true ↔ s.dir = .drive))
end

