-- ==== Sys2Proof/Laws/Decode.lean ====
section
/-! SUPPORT. The readers of Decode.lean, one lemma a reader: digits, byte runs, fields, and the words of the table. -/

namespace Sys2Proof

@[simp] theorem digitOf_digitByte (d : Fin 10) : digitOf (digitByte d) = some d := by revert d; decide

theorem digitOf_some {b : Byte} {d : Fin 10} (h : digitOf b = some d) : b = digitByte d := by
  revert b d; decide

@[simp] theorem digitOf_dot : digitOf dotByte = none := by decide
@[simp] theorem digitOf_plus : digitOf plusByte = none := by decide
@[simp] theorem digitOf_minus : digitOf minusByte = none := by decide

/-- A text is its digit run and what follows. -/
theorem digitRun_append (bs : List Byte) : (digitRun bs).map digitByte ++ afterDigits bs = bs := by
  induction bs with
  | nil => rfl
  | cons b bs ih =>
    cases h : digitOf b with
    | none => simp [digitRun, afterDigits, h]
    | some d => rw [digitRun, afterDigits, h, List.map_cons, List.cons_append, ih, ← digitOf_some h]

/-- A text that does not begin with a digit. -/
def NoDigitFirst (bs : List Byte) : Prop := ∀ b ∈ bs.head?, digitOf b = none

theorem digitRun_digits (ds : List (Fin 10)) {rest : List Byte} (h : NoDigitFirst rest) :
    digitRun (ds.map digitByte ++ rest) = ds := by
  induction ds with
  | nil =>
    cases rest with
    | nil => rfl
    | cons b bs => simp [digitRun, h b (by simp)]
  | cons d ds ih => simp [digitRun, ih]

theorem afterDigits_digits (ds : List (Fin 10)) {rest : List Byte} (h : NoDigitFirst rest) :
    afterDigits (ds.map digitByte ++ rest) = rest := by
  induction ds with
  | nil =>
    cases rest with
    | nil => rfl
    | cons b bs => simp [afterDigits, h b (by simp)]
  | cons d ds ih => simp [afterDigits, ih]

/-- The bytes taken are the first ones, and there are enough. -/
theorem takeBytes_ok {n : Nat} {bs t r : List Byte} : takeBytes n bs = .ok (t, r) ↔ t.length = n ∧ bs = t ++ r := by
  unfold takeBytes
  split
  · simp only [Except.ok.injEq, Prod.mk.injEq]
    constructor
    · rintro ⟨rfl, rfl⟩
      exact ⟨by simpa using ‹_›, by simp⟩
    · rintro ⟨rfl, rfl⟩
      simp
  · simp only [reduceCtorEq, false_iff]
    rintro ⟨rfl, rfl⟩
    simp at *

theorem takeBytes_error {n : Nat} {bs : List Byte} {e : RefuseReason} :
    takeBytes n bs = .error e ↔ bs.length < n ∧ e = .truncatedEvent := by
  unfold takeBytes
  split <;> simp [eq_comm] <;> omega

theorem Decimal.text_length (d : Decimal) : d.text.length = d.textLength := by
  rcases d with ⟨_ | _ | _, ip, _ | ds⟩ <;> simp [Decimal.text, Decimal.textLength, signText, fracText] <;> omega

theorem rxByte_of_ordinary {d : Byte} (h1 : d ≠ startMarker) (h2 : d ≠ endMarker) : rxByte d = .rxData d := by
  simp only [rxByte, if_neg h1, if_neg h2]

/-! ### Fields (41_codec_decode.md R141) -/

@[simp] theorem split_nil (s : Byte) : split s [] = [[]] := rfl

theorem split_ne_nil (s : Byte) (p : List Byte) : split s p ≠ [] := by
  cases p with
  | nil => simp
  | cons b p =>
    rw [split]
    split
    · simp
    · cases split s p <;> simp [consField]

/-- The first field is the payload up to the first separator. -/
theorem fieldsOf_head (p : List Byte) : (fieldsOf p).head? = some (firstField p) := by
  unfold fieldsOf
  induction p with
  | nil => rfl
  | cons b p ih =>
    by_cases h : b = separator
    · simp [split, h, firstField]
    · obtain ⟨f, fs, hf⟩ : ∃ f fs, split separator p = f :: fs := by
        cases hs : split separator p with
        | nil => exact absurd hs (split_ne_nil _ _)
        | cons f fs => exact ⟨f, fs, rfl⟩
      rw [hf] at ih
      simp only [List.head?_cons, Option.some.injEq] at ih
      rw [split, if_neg h, hf, consField, List.head?_cons, firstField, List.takeWhile_cons_of_pos (by simpa using h), ih,
        firstField]

end Sys2Proof
end

