-- ==== Sys2Proof/Laws/Memory.lean ====
section
/-! SUPPORT. The buffers: a read after a write, and the canonical form. -/

namespace Sys2Proof.Machine

theorem memRead_memWrite_same (m : Memory) (a : Nat) (b : Byte) : memRead (memWrite m a b) a = some b := by
  induction m with
  | nil => simp [memWrite, memRead]
  | cons c m ih =>
    by_cases h1 : a < c.1
    · simp [memWrite, h1, memRead]
    · by_cases h2 : a = c.1
      · simp [memWrite, h2, memRead]
      · simp [memWrite, h1, h2, memRead, ih]

theorem memRead_memWrite_other {m : Memory} {a i : Nat} {b : Byte} (h : i ≠ a) :
    memRead (memWrite m a b) i = memRead m i := by
  induction m with
  | nil => simp [memWrite, memRead, h]
  | cons c m ih =>
    by_cases h1 : a < c.1
    · simp [memWrite, h1, memRead, h]
    · by_cases h2 : a = c.1
      · subst h2
        simp [memWrite, memRead, h]
      · simp [memWrite, h1, h2, memRead, ih]

/-- A read after a write, in one form. -/
theorem memRead_memWrite (m : Memory) (a i : Nat) (b : Byte) :
    memRead (memWrite m a b) i = if i = a then some b else memRead m i := by
  split
  · subst i
    exact memRead_memWrite_same m a b
  · exact memRead_memWrite_other ‹_›

/-- A read after a run of writes: the run's byte inside it, the old one outside. -/
theorem memRead_memWriteList (m : Memory) (a i : Nat) (bs : List Byte) :
    memRead (memWriteList m a bs) i = if a ≤ i ∧ i < a + bs.length then bs[i - a]? else memRead m i := by
  induction bs generalizing m a with
  | nil =>
    have : ¬ (a ≤ i ∧ i < a + ([] : List Byte).length) := by simp
    rw [if_neg this]
    rfl
  | cons b bs ih =>
    rw [memWriteList, ih, memRead_memWrite]
    simp only [List.length_cons]
    by_cases h : a + 1 ≤ i ∧ i < a + 1 + bs.length
    · rw [if_pos h, if_pos ⟨by omega, by omega⟩]
      obtain ⟨k, rfl⟩ : ∃ k, i = a + 1 + k := ⟨i - (a + 1), by omega⟩
      rw [show a + 1 + k - (a + 1) = k by omega, show a + 1 + k - a = k + 1 by omega, List.getElem?_cons_succ]
    · rw [if_neg h]
      by_cases h2 : i = a
      · subst h2
        simp
      · rw [if_neg h2, if_neg (by omega)]

/-- Writing keeps every index of a buffer within a bound that the new index keeps. -/
theorem memWrite_index {m : Memory} {a : Nat} {b : Byte} {c : Host.Cell} (h : c ∈ memWrite m a b) :
    c.1 = a ∨ c ∈ m := by
  induction m with
  | nil =>
    simp only [memWrite, List.mem_singleton] at h
    exact .inl (by rw [h])
  | cons d m ih =>
    by_cases h1 : a < d.1
    · simp only [memWrite, h1, if_true, List.mem_cons] at h
      rcases h with rfl | h
      · exact .inl rfl
      · exact .inr (by simpa using h)
    · by_cases h2 : a = d.1
      · simp only [memWrite, h2, if_true, if_false, lt_irrefl, List.mem_cons] at h
        rcases h with rfl | h
        · exact .inl h2.symm
        · exact .inr (List.mem_cons_of_mem _ h)
      · simp only [memWrite, h1, h2, if_false, List.mem_cons] at h
        rcases h with rfl | h
        · exact .inr (by simp)
        · exact (ih h).imp_right (List.mem_cons_of_mem _)

theorem memWriteList_index {m : Memory} {a : Nat} {bs : List Byte} {c : Host.Cell} (h : c ∈ memWriteList m a bs) :
    c.1 < a + bs.length ∨ c ∈ m := by
  induction bs generalizing m a with
  | nil => exact .inr h
  | cons b bs ih =>
    rw [List.length_cons]
    rcases ih h with h | h
    · exact .inl (by omega)
    · rcases memWrite_index h with h | h
      · exact .inl (by omega)
      · exact .inr h

/-- Every write keeps the canonical form. -/
theorem memWrite_wf {m : Memory} (a : Nat) (b : Byte) (h : m.wf) : (memWrite m a b).wf := by
  induction m with
  | nil => simp [memWrite, Memory.wf]
  | cons c m ih =>
    simp only [Memory.wf, List.map_cons, List.pairwise_cons] at h
    by_cases h1 : a < c.1
    · rw [memWrite, if_pos h1]
      simp only [Memory.wf, List.map_cons, List.pairwise_cons, List.mem_cons, forall_eq_or_imp]
      exact ⟨⟨h1, fun k hk => h1.trans (h.1 k hk)⟩, h⟩
    · by_cases h2 : a = c.1
      · subst h2
        simpa [memWrite, Memory.wf] using h
      · simp only [memWrite, h1, h2, if_false, Memory.wf, List.map_cons, List.pairwise_cons]
        refine ⟨fun k hk => ?_, ih h.2⟩
        obtain ⟨d, hd, rfl⟩ := List.mem_map.1 hk
        rcases memWrite_index hd with h3 | h3
        · omega
        · exact h.1 _ (List.mem_map_of_mem h3)

theorem memWriteList_wf {m : Memory} (a : Nat) (bs : List Byte) (h : m.wf) : (memWriteList m a bs).wf := by
  induction bs generalizing m a with
  | nil => exact h
  | cons b bs ih => exact ih _ (memWrite_wf a b h)

/-- The buffers of the power-on state are in canonical form. -/
theorem reset_buffers_wf : State.reset.rxBuf.wf ∧ State.reset.txBuf.wf := by decide

end Sys2Proof.Machine
end

