-- ==== Sys2Proof/Laws/State.lean ====
section
/-! SUPPORT. What each update does to each field of `State`, one lemma a field. -/

namespace Sys2Proof.Machine

section
variable (s : State) (e : OutEvent)
@[simp] theorem emit_cfg : (emit s e).cfg = s.cfg := rfl
@[simp] theorem emit_rxState : (emit s e).rxState = s.rxState := rfl
@[simp] theorem emit_rxIdx : (emit s e).rxIdx = s.rxIdx := rfl
@[simp] theorem emit_rxBuf : (emit s e).rxBuf = s.rxBuf := rfl
@[simp] theorem emit_dir : (emit s e).dir = s.dir := rfl
@[simp] theorem emit_txPhase : (emit s e).txPhase = s.txPhase := rfl
@[simp] theorem emit_txLen : (emit s e).txLen = s.txLen := rfl
@[simp] theorem emit_txPos : (emit s e).txPos = s.txPos := rfl
@[simp] theorem emit_txErr : (emit s e).txErr = s.txErr := rfl
@[simp] theorem emit_txBuf : (emit s e).txBuf = s.txBuf := rfl
@[simp] theorem emit_fault : (emit s e).fault = s.fault := rfl
@[simp] theorem emit_refused : (emit s e).refused = s.refused := rfl
@[simp] theorem emit_input : (emit s e).input = s.input := rfl
@[simp] theorem emit_trace : (emit s e).trace = s.trace ++ [e] := rfl
@[simp] theorem emit_handed : (emit s e).handed = s.handed := rfl
@[simp] theorem emit_line : (emit s e).line = s.line := rfl
@[simp] theorem emit_draws : (emit s e).draws = s.draws := rfl
end

section
variable (s : State) (d : Dir)
@[simp] theorem setDir_cfg : (setDir s d).cfg = s.cfg := rfl
@[simp] theorem setDir_rxState : (setDir s d).rxState = s.rxState := rfl
@[simp] theorem setDir_rxIdx : (setDir s d).rxIdx = s.rxIdx := rfl
@[simp] theorem setDir_rxBuf : (setDir s d).rxBuf = s.rxBuf := rfl
@[simp] theorem setDir_dir : (setDir s d).dir = d := rfl
@[simp] theorem setDir_txPhase : (setDir s d).txPhase = s.txPhase := rfl
@[simp] theorem setDir_txLen : (setDir s d).txLen = s.txLen := rfl
@[simp] theorem setDir_txPos : (setDir s d).txPos = s.txPos := rfl
@[simp] theorem setDir_txErr : (setDir s d).txErr = s.txErr := rfl
@[simp] theorem setDir_txBuf : (setDir s d).txBuf = s.txBuf := rfl
@[simp] theorem setDir_fault : (setDir s d).fault = s.fault := rfl
@[simp] theorem setDir_refused : (setDir s d).refused = s.refused := rfl
@[simp] theorem setDir_input : (setDir s d).input = s.input := rfl
@[simp] theorem setDir_trace : (setDir s d).trace = s.trace ++ [.dir d] := rfl
@[simp] theorem setDir_handed : (setDir s d).handed = s.handed := rfl
@[simp] theorem setDir_line : (setDir s d).line = s.line := rfl
@[simp] theorem setDir_draws : (setDir s d).draws = s.draws := rfl
end

section
variable (s : State) (b : Byte)
@[simp] theorem requestByte_cfg : (requestByte s b).cfg = s.cfg := rfl
@[simp] theorem requestByte_rxState : (requestByte s b).rxState = s.rxState := rfl
@[simp] theorem requestByte_rxIdx : (requestByte s b).rxIdx = s.rxIdx := rfl
@[simp] theorem requestByte_rxBuf : (requestByte s b).rxBuf = s.rxBuf := rfl
@[simp] theorem requestByte_dir : (requestByte s b).dir = s.dir := rfl
@[simp] theorem requestByte_txPhase : (requestByte s b).txPhase = s.txPhase := rfl
@[simp] theorem requestByte_txLen : (requestByte s b).txLen = s.txLen := rfl
@[simp] theorem requestByte_txPos : (requestByte s b).txPos = s.txPos := rfl
@[simp] theorem requestByte_txErr : (requestByte s b).txErr = s.txErr := rfl
@[simp] theorem requestByte_txBuf : (requestByte s b).txBuf = s.txBuf := rfl
@[simp] theorem requestByte_fault : (requestByte s b).fault = s.fault := rfl
@[simp] theorem requestByte_refused : (requestByte s b).refused = s.refused := rfl
@[simp] theorem requestByte_input : (requestByte s b).input = s.input := rfl
@[simp] theorem requestByte_trace : (requestByte s b).trace = s.trace ++ [.txReq b] := rfl
@[simp] theorem requestByte_handed : (requestByte s b).handed = s.handed ++ [⟨b, .asked⟩] := rfl
@[simp] theorem requestByte_line : (requestByte s b).line = s.line := rfl
@[simp] theorem requestByte_draws : (requestByte s b).draws = s.draws := rfl
end

section
variable (s : State)
@[simp] theorem requestFlush_cfg : (requestFlush s).cfg = s.cfg := rfl
@[simp] theorem requestFlush_rxState : (requestFlush s).rxState = s.rxState := rfl
@[simp] theorem requestFlush_rxIdx : (requestFlush s).rxIdx = s.rxIdx := rfl
@[simp] theorem requestFlush_rxBuf : (requestFlush s).rxBuf = s.rxBuf := rfl
@[simp] theorem requestFlush_dir : (requestFlush s).dir = s.dir := rfl
@[simp] theorem requestFlush_txPhase : (requestFlush s).txPhase = .flush := rfl
@[simp] theorem requestFlush_txLen : (requestFlush s).txLen = s.txLen := rfl
@[simp] theorem requestFlush_txPos : (requestFlush s).txPos = s.txPos := rfl
@[simp] theorem requestFlush_txErr : (requestFlush s).txErr = s.txErr := rfl
@[simp] theorem requestFlush_txBuf : (requestFlush s).txBuf = s.txBuf := rfl
@[simp] theorem requestFlush_fault : (requestFlush s).fault = s.fault := rfl
@[simp] theorem requestFlush_refused : (requestFlush s).refused = s.refused := rfl
@[simp] theorem requestFlush_input : (requestFlush s).input = s.input := rfl
@[simp] theorem requestFlush_trace : (requestFlush s).trace = s.trace ++ [.flushReq] := rfl
@[simp] theorem requestFlush_handed : (requestFlush s).handed = s.handed := rfl
@[simp] theorem requestFlush_line : (requestFlush s).line = s.line := rfl
@[simp] theorem requestFlush_draws : (requestFlush s).draws = s.draws := rfl
end

section
variable (s : State)
@[simp] theorem markSent_cfg : (markSent s).cfg = s.cfg := rfl
@[simp] theorem markSent_rxState : (markSent s).rxState = s.rxState := rfl
@[simp] theorem markSent_rxIdx : (markSent s).rxIdx = s.rxIdx := rfl
@[simp] theorem markSent_rxBuf : (markSent s).rxBuf = s.rxBuf := rfl
@[simp] theorem markSent_dir : (markSent s).dir = s.dir := rfl
@[simp] theorem markSent_txPhase : (markSent s).txPhase = s.txPhase := rfl
@[simp] theorem markSent_txLen : (markSent s).txLen = s.txLen := rfl
@[simp] theorem markSent_txPos : (markSent s).txPos = s.txPos := rfl
@[simp] theorem markSent_txErr : (markSent s).txErr = s.txErr := rfl
@[simp] theorem markSent_txBuf : (markSent s).txBuf = s.txBuf := rfl
@[simp] theorem markSent_fault : (markSent s).fault = s.fault := rfl
@[simp] theorem markSent_refused : (markSent s).refused = s.refused := rfl
@[simp] theorem markSent_input : (markSent s).input = s.input := rfl
@[simp] theorem markSent_trace : (markSent s).trace = s.trace := rfl
@[simp] theorem markSent_handed : (markSent s).handed = settleLast .sent s.handed := rfl
@[simp] theorem markSent_line : (markSent s).line = s.line := rfl
@[simp] theorem markSent_draws : (markSent s).draws = s.draws := rfl
end

section
variable (s : State)
@[simp] theorem markDrawn_cfg : (markDrawn s).cfg = s.cfg := rfl
@[simp] theorem markDrawn_rxState : (markDrawn s).rxState = s.rxState := rfl
@[simp] theorem markDrawn_rxIdx : (markDrawn s).rxIdx = s.rxIdx := rfl
@[simp] theorem markDrawn_rxBuf : (markDrawn s).rxBuf = s.rxBuf := rfl
@[simp] theorem markDrawn_dir : (markDrawn s).dir = s.dir := rfl
@[simp] theorem markDrawn_txPhase : (markDrawn s).txPhase = s.txPhase := rfl
@[simp] theorem markDrawn_txLen : (markDrawn s).txLen = s.txLen := rfl
@[simp] theorem markDrawn_txPos : (markDrawn s).txPos = s.txPos := rfl
@[simp] theorem markDrawn_txErr : (markDrawn s).txErr = s.txErr := rfl
@[simp] theorem markDrawn_txBuf : (markDrawn s).txBuf = s.txBuf := rfl
@[simp] theorem markDrawn_fault : (markDrawn s).fault = s.fault := rfl
@[simp] theorem markDrawn_refused : (markDrawn s).refused = s.refused := rfl
@[simp] theorem markDrawn_input : (markDrawn s).input = s.input := rfl
@[simp] theorem markDrawn_trace : (markDrawn s).trace = s.trace := rfl
@[simp] theorem markDrawn_handed : (markDrawn s).handed = settleLast (.draw s.draws) s.handed := rfl
@[simp] theorem markDrawn_line : (markDrawn s).line = s.line := rfl
@[simp] theorem markDrawn_draws : (markDrawn s).draws = s.draws + 1 := rfl
end

section
variable (s : State)
@[simp] theorem settleLine_cfg : (settleLine s).cfg = s.cfg := rfl
@[simp] theorem settleLine_rxState : (settleLine s).rxState = s.rxState := rfl
@[simp] theorem settleLine_rxIdx : (settleLine s).rxIdx = s.rxIdx := rfl
@[simp] theorem settleLine_rxBuf : (settleLine s).rxBuf = s.rxBuf := rfl
@[simp] theorem settleLine_dir : (settleLine s).dir = s.dir := rfl
@[simp] theorem settleLine_txPhase : (settleLine s).txPhase = s.txPhase := rfl
@[simp] theorem settleLine_txLen : (settleLine s).txLen = s.txLen := rfl
@[simp] theorem settleLine_txPos : (settleLine s).txPos = s.txPos := rfl
@[simp] theorem settleLine_txErr : (settleLine s).txErr = s.txErr := rfl
@[simp] theorem settleLine_txBuf : (settleLine s).txBuf = s.txBuf := rfl
@[simp] theorem settleLine_fault : (settleLine s).fault = s.fault := rfl
@[simp] theorem settleLine_refused : (settleLine s).refused = s.refused := rfl
@[simp] theorem settleLine_input : (settleLine s).input = s.input := rfl
@[simp] theorem settleLine_trace : (settleLine s).trace = s.trace := rfl
@[simp] theorem settleLine_handed : (settleLine s).handed = [] := rfl
@[simp] theorem settleLine_line : (settleLine s).line = s.line ++ s.handed := rfl
@[simp] theorem settleLine_draws : (settleLine s).draws = s.draws := rfl
end

section
variable (s : State)
@[simp] theorem cutLine_cfg : (cutLine s).cfg = s.cfg := rfl
@[simp] theorem cutLine_rxState : (cutLine s).rxState = s.rxState := rfl
@[simp] theorem cutLine_rxIdx : (cutLine s).rxIdx = s.rxIdx := rfl
@[simp] theorem cutLine_rxBuf : (cutLine s).rxBuf = s.rxBuf := rfl
@[simp] theorem cutLine_dir : (cutLine s).dir = s.dir := rfl
@[simp] theorem cutLine_txPhase : (cutLine s).txPhase = s.txPhase := rfl
@[simp] theorem cutLine_txLen : (cutLine s).txLen = s.txLen := rfl
@[simp] theorem cutLine_txPos : (cutLine s).txPos = s.txPos := rfl
@[simp] theorem cutLine_txErr : (cutLine s).txErr = s.txErr := rfl
@[simp] theorem cutLine_txBuf : (cutLine s).txBuf = s.txBuf := rfl
@[simp] theorem cutLine_fault : (cutLine s).fault = s.fault := rfl
@[simp] theorem cutLine_refused : (cutLine s).refused = s.refused := rfl
@[simp] theorem cutLine_input : (cutLine s).input = s.input := rfl
@[simp] theorem cutLine_trace : (cutLine s).trace = s.trace := rfl
@[simp] theorem cutLine_handed : (cutLine s).handed = [] := rfl
@[simp] theorem cutLine_line : (cutLine s).line = s.line ++ drawAll s.draws s.handed := rfl
@[simp] theorem cutLine_draws : (cutLine s).draws = s.draws + s.handed.length := rfl
end

section
variable (s : State) (bs : List Byte)
@[simp] theorem loadTx_cfg : (loadTx s bs).cfg = s.cfg := rfl
@[simp] theorem loadTx_rxState : (loadTx s bs).rxState = s.rxState := rfl
@[simp] theorem loadTx_rxIdx : (loadTx s bs).rxIdx = s.rxIdx := rfl
@[simp] theorem loadTx_rxBuf : (loadTx s bs).rxBuf = s.rxBuf := rfl
@[simp] theorem loadTx_dir : (loadTx s bs).dir = s.dir := rfl
@[simp] theorem loadTx_txPhase : (loadTx s bs).txPhase = s.txPhase := rfl
@[simp] theorem loadTx_txLen : (loadTx s bs).txLen = bs.length := rfl
@[simp] theorem loadTx_txPos : (loadTx s bs).txPos = 0 := rfl
@[simp] theorem loadTx_txErr : (loadTx s bs).txErr = false := rfl
@[simp] theorem loadTx_txBuf : (loadTx s bs).txBuf = memWriteList s.txBuf 0 bs := rfl
@[simp] theorem loadTx_fault : (loadTx s bs).fault = s.fault := rfl
@[simp] theorem loadTx_refused : (loadTx s bs).refused = s.refused := rfl
@[simp] theorem loadTx_input : (loadTx s bs).input = s.input := rfl
@[simp] theorem loadTx_trace : (loadTx s bs).trace = s.trace := rfl
@[simp] theorem loadTx_handed : (loadTx s bs).handed = s.handed := rfl
@[simp] theorem loadTx_line : (loadTx s bs).line = s.line := rfl
@[simp] theorem loadTx_draws : (loadTx s bs).draws = s.draws := rfl
end

section
variable (s : State)
@[simp] theorem enterWrite_cfg : (enterWrite s).cfg = s.cfg := rfl
@[simp] theorem enterWrite_rxState : (enterWrite s).rxState = s.rxState := rfl
@[simp] theorem enterWrite_rxIdx : (enterWrite s).rxIdx = s.rxIdx := rfl
@[simp] theorem enterWrite_rxBuf : (enterWrite s).rxBuf = s.rxBuf := rfl
@[simp] theorem enterWrite_dir : (enterWrite s).dir = s.dir := rfl
@[simp] theorem enterWrite_txPhase : (enterWrite s).txPhase = .write := rfl
@[simp] theorem enterWrite_txLen : (enterWrite s).txLen = s.txLen := rfl
@[simp] theorem enterWrite_txPos : (enterWrite s).txPos = s.txPos := rfl
@[simp] theorem enterWrite_txErr : (enterWrite s).txErr = s.txErr := rfl
@[simp] theorem enterWrite_txBuf : (enterWrite s).txBuf = s.txBuf := rfl
@[simp] theorem enterWrite_fault : (enterWrite s).fault = s.fault := rfl
@[simp] theorem enterWrite_refused : (enterWrite s).refused = s.refused := rfl
@[simp] theorem enterWrite_input : (enterWrite s).input = s.input := rfl
@[simp] theorem enterWrite_trace : (enterWrite s).trace = s.trace := rfl
@[simp] theorem enterWrite_handed : (enterWrite s).handed = s.handed := rfl
@[simp] theorem enterWrite_line : (enterWrite s).line = s.line := rfl
@[simp] theorem enterWrite_draws : (enterWrite s).draws = s.draws := rfl
end

section
variable (s : State) (bs : List Byte)
@[simp] theorem consume_cfg : (consume s bs).cfg = s.cfg := rfl
@[simp] theorem consume_rxState : (consume s bs).rxState = s.rxState := rfl
@[simp] theorem consume_rxIdx : (consume s bs).rxIdx = s.rxIdx := rfl
@[simp] theorem consume_rxBuf : (consume s bs).rxBuf = s.rxBuf := rfl
@[simp] theorem consume_dir : (consume s bs).dir = s.dir := rfl
@[simp] theorem consume_txPhase : (consume s bs).txPhase = s.txPhase := rfl
@[simp] theorem consume_txLen : (consume s bs).txLen = s.txLen := rfl
@[simp] theorem consume_txPos : (consume s bs).txPos = s.txPos := rfl
@[simp] theorem consume_txErr : (consume s bs).txErr = s.txErr := rfl
@[simp] theorem consume_txBuf : (consume s bs).txBuf = s.txBuf := rfl
@[simp] theorem consume_fault : (consume s bs).fault = s.fault := rfl
@[simp] theorem consume_refused : (consume s bs).refused = s.refused := rfl
@[simp] theorem consume_input : (consume s bs).input = bs := rfl
@[simp] theorem consume_trace : (consume s bs).trace = s.trace := rfl
@[simp] theorem consume_handed : (consume s bs).handed = s.handed := rfl
@[simp] theorem consume_line : (consume s bs).line = s.line := rfl
@[simp] theorem consume_draws : (consume s bs).draws = s.draws := rfl
end

section
variable (s : State) (r : RefuseReason)
@[simp] theorem markRefused_cfg : (markRefused s r).cfg = s.cfg := rfl
@[simp] theorem markRefused_rxState : (markRefused s r).rxState = s.rxState := rfl
@[simp] theorem markRefused_rxIdx : (markRefused s r).rxIdx = s.rxIdx := rfl
@[simp] theorem markRefused_rxBuf : (markRefused s r).rxBuf = s.rxBuf := rfl
@[simp] theorem markRefused_dir : (markRefused s r).dir = s.dir := rfl
@[simp] theorem markRefused_txPhase : (markRefused s r).txPhase = s.txPhase := rfl
@[simp] theorem markRefused_txLen : (markRefused s r).txLen = s.txLen := rfl
@[simp] theorem markRefused_txPos : (markRefused s r).txPos = s.txPos := rfl
@[simp] theorem markRefused_txErr : (markRefused s r).txErr = s.txErr := rfl
@[simp] theorem markRefused_txBuf : (markRefused s r).txBuf = s.txBuf := rfl
@[simp] theorem markRefused_fault : (markRefused s r).fault = s.fault := rfl
@[simp] theorem markRefused_refused : (markRefused s r).refused = some r := rfl
@[simp] theorem markRefused_input : (markRefused s r).input = s.input := rfl
@[simp] theorem markRefused_trace : (markRefused s r).trace = s.trace := rfl
@[simp] theorem markRefused_handed : (markRefused s r).handed = s.handed := rfl
@[simp] theorem markRefused_line : (markRefused s r).line = s.line := rfl
@[simp] theorem markRefused_draws : (markRefused s r).draws = s.draws := rfl
end

section
variable (s : State)
@[simp] theorem clearBlock_cfg : (clearBlock s).cfg = s.cfg := rfl
@[simp] theorem clearBlock_rxState : (clearBlock s).rxState = .idle := rfl
@[simp] theorem clearBlock_rxIdx : (clearBlock s).rxIdx = 0 := rfl
@[simp] theorem clearBlock_rxBuf : (clearBlock s).rxBuf = s.rxBuf := rfl
@[simp] theorem clearBlock_dir : (clearBlock s).dir = s.dir := rfl
@[simp] theorem clearBlock_txPhase : (clearBlock s).txPhase = .idle := rfl
@[simp] theorem clearBlock_txLen : (clearBlock s).txLen = 0 := rfl
@[simp] theorem clearBlock_txPos : (clearBlock s).txPos = 0 := rfl
@[simp] theorem clearBlock_txErr : (clearBlock s).txErr = false := rfl
@[simp] theorem clearBlock_txBuf : (clearBlock s).txBuf = s.txBuf := rfl
@[simp] theorem clearBlock_fault : (clearBlock s).fault = s.fault := rfl
@[simp] theorem clearBlock_refused : (clearBlock s).refused = s.refused := rfl
@[simp] theorem clearBlock_input : (clearBlock s).input = s.input := rfl
@[simp] theorem clearBlock_trace : (clearBlock s).trace = s.trace := rfl
@[simp] theorem clearBlock_handed : (clearBlock s).handed = s.handed := rfl
@[simp] theorem clearBlock_line : (clearBlock s).line = s.line := rfl
@[simp] theorem clearBlock_draws : (clearBlock s).draws = s.draws := rfl
end

section
variable (s : State)
@[simp] theorem openFrame_cfg : (openFrame s).cfg = s.cfg := rfl
@[simp] theorem openFrame_rxState : (openFrame s).rxState = .acc := rfl
@[simp] theorem openFrame_rxIdx : (openFrame s).rxIdx = 0 := rfl
@[simp] theorem openFrame_rxBuf : (openFrame s).rxBuf = s.rxBuf := rfl
@[simp] theorem openFrame_dir : (openFrame s).dir = s.dir := rfl
@[simp] theorem openFrame_txPhase : (openFrame s).txPhase = s.txPhase := rfl
@[simp] theorem openFrame_txLen : (openFrame s).txLen = s.txLen := rfl
@[simp] theorem openFrame_txPos : (openFrame s).txPos = s.txPos := rfl
@[simp] theorem openFrame_txErr : (openFrame s).txErr = s.txErr := rfl
@[simp] theorem openFrame_txBuf : (openFrame s).txBuf = s.txBuf := rfl
@[simp] theorem openFrame_fault : (openFrame s).fault = s.fault := rfl
@[simp] theorem openFrame_refused : (openFrame s).refused = s.refused := rfl
@[simp] theorem openFrame_input : (openFrame s).input = s.input := rfl
@[simp] theorem openFrame_trace : (openFrame s).trace = s.trace := rfl
@[simp] theorem openFrame_handed : (openFrame s).handed = s.handed := rfl
@[simp] theorem openFrame_line : (openFrame s).line = s.line := rfl
@[simp] theorem openFrame_draws : (openFrame s).draws = s.draws := rfl
end

section
variable (s : State) (p : List Byte)
@[simp] theorem completeFrame_cfg : (completeFrame s p).cfg = s.cfg := rfl
@[simp] theorem completeFrame_rxState : (completeFrame s p).rxState = .idle := rfl
@[simp] theorem completeFrame_rxIdx : (completeFrame s p).rxIdx = 0 := rfl
@[simp] theorem completeFrame_rxBuf : (completeFrame s p).rxBuf = s.rxBuf := rfl
@[simp] theorem completeFrame_dir : (completeFrame s p).dir = s.dir := rfl
@[simp] theorem completeFrame_txPhase : (completeFrame s p).txPhase = s.txPhase := rfl
@[simp] theorem completeFrame_txLen : (completeFrame s p).txLen = s.txLen := rfl
@[simp] theorem completeFrame_txPos : (completeFrame s p).txPos = s.txPos := rfl
@[simp] theorem completeFrame_txErr : (completeFrame s p).txErr = s.txErr := rfl
@[simp] theorem completeFrame_txBuf : (completeFrame s p).txBuf = s.txBuf := rfl
@[simp] theorem completeFrame_fault : (completeFrame s p).fault = s.fault := rfl
@[simp] theorem completeFrame_refused : (completeFrame s p).refused = s.refused := rfl
@[simp] theorem completeFrame_input : (completeFrame s p).input = s.input := rfl
@[simp] theorem completeFrame_trace : (completeFrame s p).trace = s.trace ++ [.frameOut p, .msgOut (decodeMsg s.cfg p)] := rfl
@[simp] theorem completeFrame_handed : (completeFrame s p).handed = s.handed := rfl
@[simp] theorem completeFrame_line : (completeFrame s p).line = s.line := rfl
@[simp] theorem completeFrame_draws : (completeFrame s p).draws = s.draws := rfl
end

section
variable (s : State) (d : Byte)
@[simp] theorem appendByte_cfg : (appendByte s d).cfg = s.cfg := rfl
@[simp] theorem appendByte_rxState : (appendByte s d).rxState = s.rxState := rfl
@[simp] theorem appendByte_rxIdx : (appendByte s d).rxIdx = s.rxIdx + 1 := rfl
@[simp] theorem appendByte_rxBuf : (appendByte s d).rxBuf = memWrite s.rxBuf s.rxIdx d := rfl
@[simp] theorem appendByte_dir : (appendByte s d).dir = s.dir := rfl
@[simp] theorem appendByte_txPhase : (appendByte s d).txPhase = s.txPhase := rfl
@[simp] theorem appendByte_txLen : (appendByte s d).txLen = s.txLen := rfl
@[simp] theorem appendByte_txPos : (appendByte s d).txPos = s.txPos := rfl
@[simp] theorem appendByte_txErr : (appendByte s d).txErr = s.txErr := rfl
@[simp] theorem appendByte_txBuf : (appendByte s d).txBuf = s.txBuf := rfl
@[simp] theorem appendByte_fault : (appendByte s d).fault = s.fault := rfl
@[simp] theorem appendByte_refused : (appendByte s d).refused = s.refused := rfl
@[simp] theorem appendByte_input : (appendByte s d).input = s.input := rfl
@[simp] theorem appendByte_trace : (appendByte s d).trace = s.trace := rfl
@[simp] theorem appendByte_handed : (appendByte s d).handed = s.handed := rfl
@[simp] theorem appendByte_line : (appendByte s d).line = s.line := rfl
@[simp] theorem appendByte_draws : (appendByte s d).draws = s.draws := rfl
end

section
variable (s : State)
@[simp] theorem advance_cfg : (advance s).cfg = s.cfg := rfl
@[simp] theorem advance_rxState : (advance s).rxState = s.rxState := rfl
@[simp] theorem advance_rxIdx : (advance s).rxIdx = s.rxIdx := rfl
@[simp] theorem advance_rxBuf : (advance s).rxBuf = s.rxBuf := rfl
@[simp] theorem advance_dir : (advance s).dir = s.dir := rfl
@[simp] theorem advance_txPhase : (advance s).txPhase = s.txPhase := rfl
@[simp] theorem advance_txLen : (advance s).txLen = s.txLen := rfl
@[simp] theorem advance_txPos : (advance s).txPos = s.txPos + 1 := rfl
@[simp] theorem advance_txErr : (advance s).txErr = s.txErr := rfl
@[simp] theorem advance_txBuf : (advance s).txBuf = s.txBuf := rfl
@[simp] theorem advance_fault : (advance s).fault = s.fault := rfl
@[simp] theorem advance_refused : (advance s).refused = s.refused := rfl
@[simp] theorem advance_input : (advance s).input = s.input := rfl
@[simp] theorem advance_trace : (advance s).trace = s.trace := rfl
@[simp] theorem advance_handed : (advance s).handed = settleLast .sent s.handed := rfl
@[simp] theorem advance_line : (advance s).line = s.line := rfl
@[simp] theorem advance_draws : (advance s).draws = s.draws := rfl
end

section
variable (s : State)
@[simp] theorem noteError_cfg : (noteError s).cfg = s.cfg := rfl
@[simp] theorem noteError_rxState : (noteError s).rxState = s.rxState := rfl
@[simp] theorem noteError_rxIdx : (noteError s).rxIdx = s.rxIdx := rfl
@[simp] theorem noteError_rxBuf : (noteError s).rxBuf = s.rxBuf := rfl
@[simp] theorem noteError_dir : (noteError s).dir = s.dir := rfl
@[simp] theorem noteError_txPhase : (noteError s).txPhase = s.txPhase := rfl
@[simp] theorem noteError_txLen : (noteError s).txLen = s.txLen := rfl
@[simp] theorem noteError_txPos : (noteError s).txPos = s.txPos := rfl
@[simp] theorem noteError_txErr : (noteError s).txErr = true := rfl
@[simp] theorem noteError_txBuf : (noteError s).txBuf = s.txBuf := rfl
@[simp] theorem noteError_fault : (noteError s).fault = s.fault := rfl
@[simp] theorem noteError_refused : (noteError s).refused = s.refused := rfl
@[simp] theorem noteError_input : (noteError s).input = s.input := rfl
@[simp] theorem noteError_trace : (noteError s).trace = s.trace := rfl
@[simp] theorem noteError_handed : (noteError s).handed = settleLast (.draw s.draws) s.handed := rfl
@[simp] theorem noteError_line : (noteError s).line = s.line := rfl
@[simp] theorem noteError_draws : (noteError s).draws = s.draws + 1 := rfl
end

section
variable (s : State)
@[simp] theorem releaseTx_cfg : (releaseTx s).cfg = s.cfg := rfl
@[simp] theorem releaseTx_rxState : (releaseTx s).rxState = s.rxState := rfl
@[simp] theorem releaseTx_rxIdx : (releaseTx s).rxIdx = s.rxIdx := rfl
@[simp] theorem releaseTx_rxBuf : (releaseTx s).rxBuf = s.rxBuf := rfl
@[simp] theorem releaseTx_dir : (releaseTx s).dir = .listen := rfl
@[simp] theorem releaseTx_txPhase : (releaseTx s).txPhase = .idle := rfl
@[simp] theorem releaseTx_txLen : (releaseTx s).txLen = s.txLen := rfl
@[simp] theorem releaseTx_txPos : (releaseTx s).txPos = s.txPos := rfl
@[simp] theorem releaseTx_txErr : (releaseTx s).txErr = s.txErr := rfl
@[simp] theorem releaseTx_txBuf : (releaseTx s).txBuf = s.txBuf := rfl
@[simp] theorem releaseTx_fault : (releaseTx s).fault = s.fault := rfl
@[simp] theorem releaseTx_refused : (releaseTx s).refused = s.refused := rfl
@[simp] theorem releaseTx_input : (releaseTx s).input = s.input := rfl
@[simp] theorem releaseTx_trace : (releaseTx s).trace = s.trace ++ [.dir .listen] := rfl
@[simp] theorem releaseTx_handed : (releaseTx s).handed = [] := rfl
@[simp] theorem releaseTx_line : (releaseTx s).line = s.line ++ s.handed := rfl
@[simp] theorem releaseTx_draws : (releaseTx s).draws = s.draws := rfl
end

section
variable (s : State) (bs : List Byte)
@[simp] theorem start_cfg : (start s bs).cfg = s.cfg := by cases bs <;> rfl
@[simp] theorem start_rxState : (start s bs).rxState = s.rxState := by cases bs <;> rfl
@[simp] theorem start_rxIdx : (start s bs).rxIdx = s.rxIdx := by cases bs <;> rfl
@[simp] theorem start_rxBuf : (start s bs).rxBuf = s.rxBuf := by cases bs <;> rfl
@[simp] theorem start_dir : (start s bs).dir = .drive := by cases bs <;> rfl
@[simp] theorem start_txPhase : (start s bs).txPhase = if bs = [] then .flush else .write := by cases bs <;> rfl
@[simp] theorem start_txLen : (start s bs).txLen = bs.length := by cases bs <;> rfl
@[simp] theorem start_txPos : (start s bs).txPos = 0 := by cases bs <;> rfl
@[simp] theorem start_txErr : (start s bs).txErr = false := by cases bs <;> rfl
@[simp] theorem start_txBuf : (start s bs).txBuf = memWriteList s.txBuf 0 bs := by cases bs <;> rfl
@[simp] theorem start_fault : (start s bs).fault = s.fault := by cases bs <;> rfl
@[simp] theorem start_refused : (start s bs).refused = s.refused := by cases bs <;> rfl
@[simp] theorem start_input : (start s bs).input = s.input := by cases bs <;> rfl
@[simp] theorem start_line : (start s bs).line = s.line := by cases bs <;> rfl
@[simp] theorem start_draws : (start s bs).draws = s.draws := by cases bs <;> rfl
@[simp] theorem start_nil_trace : (start s []).trace = s.trace ++ [.dir .drive, .flushReq] := by simp [start]
@[simp] theorem start_cons_trace (b : Byte) : (start s (b :: bs)).trace = s.trace ++ [.dir .drive, .txReq b] := by simp [start]
@[simp] theorem start_nil_handed : (start s []).handed = s.handed := rfl
@[simp] theorem start_cons_handed (b : Byte) : (start s (b :: bs)).handed = s.handed ++ [⟨b, .asked⟩] := rfl
end

section
variable (s : State)
@[simp] theorem releaseLine_cfg : (releaseLine s).cfg = s.cfg := by cases h : s.dir <;> simp [releaseLine, h]
@[simp] theorem releaseLine_rxState : (releaseLine s).rxState = s.rxState := by cases h : s.dir <;> simp [releaseLine, h]
@[simp] theorem releaseLine_rxIdx : (releaseLine s).rxIdx = s.rxIdx := by cases h : s.dir <;> simp [releaseLine, h]
@[simp] theorem releaseLine_rxBuf : (releaseLine s).rxBuf = s.rxBuf := by cases h : s.dir <;> simp [releaseLine, h]
@[simp] theorem releaseLine_dir : (releaseLine s).dir = .listen := by cases h : s.dir <;> simp [releaseLine, h]
@[simp] theorem releaseLine_txPhase : (releaseLine s).txPhase = s.txPhase := by cases h : s.dir <;> simp [releaseLine, h]
@[simp] theorem releaseLine_txLen : (releaseLine s).txLen = s.txLen := by cases h : s.dir <;> simp [releaseLine, h]
@[simp] theorem releaseLine_txPos : (releaseLine s).txPos = s.txPos := by cases h : s.dir <;> simp [releaseLine, h]
@[simp] theorem releaseLine_txErr : (releaseLine s).txErr = s.txErr := by cases h : s.dir <;> simp [releaseLine, h]
@[simp] theorem releaseLine_txBuf : (releaseLine s).txBuf = s.txBuf := by cases h : s.dir <;> simp [releaseLine, h]
@[simp] theorem releaseLine_fault : (releaseLine s).fault = s.fault := by cases h : s.dir <;> simp [releaseLine, h]
@[simp] theorem releaseLine_refused : (releaseLine s).refused = s.refused := by cases h : s.dir <;> simp [releaseLine, h]
@[simp] theorem releaseLine_input : (releaseLine s).input = s.input := by cases h : s.dir <;> simp [releaseLine, h]
@[simp] theorem releaseLine_trace :
    (releaseLine s).trace = s.trace ++ (if s.dir = .drive then [.dir .listen] else []) := by
  cases h : s.dir <;> simp [releaseLine, h]
@[simp] theorem releaseLine_handed : (releaseLine s).handed = s.handed := by cases h : s.dir <;> simp [releaseLine, h]
@[simp] theorem releaseLine_line : (releaseLine s).line = s.line := by cases h : s.dir <;> simp [releaseLine, h]
@[simp] theorem releaseLine_draws : (releaseLine s).draws = s.draws := by cases h : s.dir <;> simp [releaseLine, h]
end

end Sys2Proof.Machine
end

