-- ==== Sys2Proof/Laws/Ops.lean ====
section
/-! SUPPORT. What each shared operation can do, said once. -/

namespace Sys2Proof.Machine

/-! ### Guards -/

theorem whenEnabled_none {s : State} {o : Host.Outcome State Fault Refusal} (h : s.fault = none) :
    whenEnabled s o = o := by simp [whenEnabled, h]

theorem whenEnabled_some {s : State} {r : FaultRecord} {o : Host.Outcome State Fault Refusal} (h : s.fault = some r) :
    whenEnabled s o = .fault (.notEnabled r) := by simp [whenEnabled, h]

/-- A guarded step that answers a next state was enabled. -/
theorem whenEnabled_next {s t : State} {o : Host.Outcome State Fault Refusal} (h : whenEnabled s o = .next t) :
    s.fault = none ∧ o = .next t := by
  unfold whenEnabled at h
  split at h
  · cases h
  · exact ⟨‹_›, h⟩

theorem whenPhase_of_eq {s : State} {p : TxPhase} {c : FaultCode} {n : Nat} {o : Host.Outcome State Fault Refusal}
    (h : s.txPhase = p) : whenPhase s p c n o = o := by simp [whenPhase, h]

theorem whenPhase_of_ne {s : State} {p : TxPhase} {c : FaultCode} {n : Nat} {o : Host.Outcome State Fault Refusal}
    (h : s.txPhase ≠ p) : whenPhase s p c n o = .next { s with fault := some ⟨c, n⟩ } := by simp [whenPhase, h, raise]

/-- A phase check answers its body in the phase, and otherwise records the fault and nothing else. -/
theorem whenPhase_next {s t : State} {p : TxPhase} {c : FaultCode} {n : Nat} {o : Host.Outcome State Fault Refusal}
    (h : whenPhase s p c n o = .next t) :
    (s.txPhase = p ∧ o = .next t) ∨ (s.txPhase ≠ p ∧ t = { s with fault := some ⟨c, n⟩ }) := by
  by_cases hp : s.txPhase = p
  · exact .inl ⟨hp, by rwa [whenPhase_of_eq hp] at h⟩
  · rw [whenPhase_of_ne hp] at h
    exact .inr ⟨hp, by cases h; rfl⟩

/-! ### Reads -/

/-- A written byte is the one that is read. -/
theorem memByte_of_memRead {sp : Space} {m : Memory} {i : Nat} {b : Byte} (h : memRead m i = some b) :
    memByte sp m i = b := by simp [memByte, h]

/-- A byte nothing has written is the free one. -/
theorem memByte_unwritten {sp : Space} {m : Memory} {i : Nat} (h : memRead m i = none) :
    memByte sp m i = Memory.unlisted sp i := by simp [memByte, h]

/-- A read answers the byte of the space exactly where the index is in it. -/
theorem readSpace_ok {sp : Space} {cap i : Nat} {m : Memory} {b : Byte} :
    readSpace sp cap m i = .ok b ↔ i < cap ∧ memByte sp m i = b := by
  unfold readSpace
  split <;> simp [*]

/-- A payload of bytes within the space answers the bytes it holds. -/
theorem readPayload_of_le {s : State} {n : Nat} (h : n ≤ s.cfg.rxCap) :
    readPayload s n = .ok ((List.range n).map (memByte .rx s.rxBuf)) := by
  induction n with
  | zero => rfl
  | succ n ih =>
    rw [readPayload, ih (by omega), readRx, readSpace_ok.2 ⟨h, rfl⟩]
    simp [List.range_succ]

/-- A payload answers exactly where each of its indices is in the space. -/
theorem readPayload_ok {s : State} {n : Nat} {p : List Byte} :
    readPayload s n = .ok p ↔ n ≤ s.cfg.rxCap ∧ p = (List.range n).map (memByte .rx s.rxBuf) := by
  by_cases h : n ≤ s.cfg.rxCap
  · rw [readPayload_of_le h]
    simp [h, eq_comm]
  · simp only [h, false_and, iff_false]
    induction n generalizing p with
    | zero => omega
    | succ n ih =>
      rw [readPayload]
      by_cases hn : n ≤ s.cfg.rxCap
      · rw [readPayload_of_le hn, readRx, readSpace, if_neg (by omega)]
        simp
      · cases hr : readPayload s n with
        | error f => simp
        | ok q => exact absurd hr (ih hn)

/-! ### The transport's side -/

@[simp] theorem settleLast_concat (f : Fate) (xs : List LineByte) (x : LineByte) :
    settleLast f (xs ++ [x]) = xs ++ [⟨x.byte, f⟩] := by
  induction xs with
  | nil => rfl
  | cons y ys ih =>
    rcases ys with _ | ⟨z, zs⟩
    · rfl
    · simpa [settleLast] using ih

@[simp] theorem drawAll_length (k : Nat) (xs : List LineByte) : (drawAll k xs).length = xs.length := by
  induction xs generalizing k with
  | nil => rfl
  | cons x xs ih => simp [drawAll, ih]

@[simp] theorem drawAll_bytes (k : Nat) (xs : List LineByte) :
    (drawAll k xs).map LineByte.byte = xs.map LineByte.byte := by
  induction xs generalizing k with
  | nil => rfl
  | cons x xs ih => simp [drawAll, ih]

theorem lineCarried_append (xs ys : List LineByte) : lineCarried (xs ++ ys) = lineCarried xs ++ lineCarried ys := by
  induction xs with
  | nil => rfl
  | cons x xs ih =>
    rw [List.cons_append]
    cases hx : x.fate with
    | asked => simp [lineCarried, hx, ih]
    | sent => simp [lineCarried, hx, ih]
    | draw k =>
      by_cases hk : Config.lineDraw k = true
      · simp [lineCarried, hx, ih, hk]
      · simp [lineCarried, hx, ih, hk]

/-! ### The result of sending -/

theorem sendEncoded_ok {s : State} {f : List Byte} : sendEncoded s (.ok, f) = start s f := rfl

theorem sendEncoded_error {s : State} {c : ResultCode} {f : List Byte} (h : c ≠ .ok) :
    sendEncoded s (c, f) = emit s (.result c) := by simp [sendEncoded, h]

/-- The length check answers one of two ways (40_codec_encode.md R103). -/
theorem sized_cases (c : Config) (f : List Byte) :
    (f.length ≤ c.txCap ∧ sized c f = (.ok, f)) ∨ (c.txCap < f.length ∧ sized c f = (.errOversize, [])) := by
  by_cases h : f.length > c.txCap
  · exact .inr ⟨h, by simp [sized, h]⟩
  · exact .inl ⟨by omega, by simp [sized, h]⟩

/-! ### The stream -/

theorem fetch_event {s s' : State} {i : Instr} (h : fetch s = .event i s') :
    s.refused = none ∧ s.fault = none ∧ ∃ rest, decodeEvent s.input = .ok (i, rest) ∧ s' = consume s rest := by
  unfold fetch at h
  split at h
  · cases h
  · cases h
  · cases h
  · rename_i h1 h2 h3
    split at h
    · cases h
    · rename_i j rest hd
      cases h
      exact ⟨h1, h2, rest, by rw [h3]; exact hd, rfl⟩

/-- Everything a step that answers a next state can have done. -/
theorem step_next {s t : State} (h : step s = .next t) :
    (s.input = [] ∧ t = s) ∨ (∃ r, decodeEvent s.input = .error r ∧ t = markRefused s r) ∨
      ∃ i rest, decodeEvent s.input = .ok (i, rest) ∧ exec i (consume s rest) = .next t := by
  unfold step at h
  split at h
  · cases h
  · cases h
  · rename_i hf
    cases h
    unfold fetch at hf
    split at hf
    · cases hf
    · cases hf
    · exact .inl ⟨‹_›, rfl⟩
    · split at hf <;> cases hf
  · rename_i r hf
    cases h
    unfold fetch at hf
    split at hf
    · cases hf
    · cases hf
    · cases hf
    · rename_i h3
      split at hf
      · rename_i r' hd
        cases hf
        exact .inr (.inl ⟨_, by rw [h3]; exact hd, rfl⟩)
      · cases hf
  · rename_i i s' hf
    obtain ⟨-, -, rest, hd, rfl⟩ := fetch_event hf
    exact .inr (.inr ⟨i, rest, hd, h⟩)

end Sys2Proof.Machine
end

