-- ==== Sys2Proof/Laws/Exec.lean ====
section
/-! SUPPORT. Everything each meaning can have done when it answers a next state, one lemma a shape. A recorded fault is
written `{ s with fault := … }`. -/

namespace Sys2Proof.Machine

/-- The state after `raise`. -/
abbrev faulted (s : State) (c : FaultCode) (n : Nat) : State := { s with fault := some ⟨c, n⟩ }

theorem execReset_next {s t : State} (h : execReset s = .next t) :
    s.fault = none ∧ t = clearBlock (cutLine (releaseLine s)) := by
  obtain ⟨h1, h2⟩ := whenEnabled_next h
  exact ⟨h1, by cases h2; rfl⟩

theorem whenListening_next {s t : State} {d : Byte} {o : Host.Outcome State Fault Refusal}
    (h : whenListening s d o = .next t) :
    s.fault = none ∧ ((s.txPhase = .idle ∧ o = .next t) ∨ (s.txPhase ≠ .idle ∧ t = faulted s .rxDuringTx d.toNat)) := by
  obtain ⟨h1, h2⟩ := whenEnabled_next h
  exact ⟨h1, whenPhase_next h2⟩

theorem execRxStart_next {s t : State} (h : execRxStart s = .next t) :
    s.fault = none ∧ ((s.txPhase = .idle ∧ t = openFrame s) ∨
      (s.txPhase ≠ .idle ∧ t = faulted s .rxDuringTx startMarker.toNat)) := by
  obtain ⟨h1, h2⟩ := whenListening_next h
  refine ⟨h1, h2.imp_left fun ⟨hp, ho⟩ => ⟨hp, ?_⟩⟩
  cases ho
  rfl

theorem execRxEnd_next {s t : State} (h : execRxEnd s = .next t) :
    s.fault = none ∧ ((s.txPhase = .idle ∧ s.rxState = .idle ∧ t = s) ∨
      (s.txPhase = .idle ∧ s.rxState = .acc ∧ ∃ p, readPayload s s.rxIdx = .ok p ∧ t = completeFrame s p) ∨
      (s.txPhase ≠ .idle ∧ t = faulted s .rxDuringTx endMarker.toNat)) := by
  obtain ⟨h1, ⟨hp, ho⟩ | hf⟩ := whenListening_next h
  · refine ⟨h1, ?_⟩
    split at ho
    · cases ho
      exact .inl ⟨hp, ‹_›, rfl⟩
    · split at ho
      · cases ho
      · cases ho
        exact .inr (.inl ⟨hp, ‹_›, _, ‹_›, rfl⟩)
  · exact ⟨h1, .inr (.inr hf)⟩

theorem execRxData_next {s t : State} {d : Byte} (h : execRxData d s = .next t) :
    s.fault = none ∧ ((s.txPhase = .idle ∧ s.rxState = .acc ∧ s.rxIdx < s.cfg.rxCap - 1 ∧ t = appendByte s d) ∨
      (s.txPhase = .idle ∧ (s.rxState = .idle ∨ s.cfg.rxCap - 1 ≤ s.rxIdx) ∧ t = s) ∨
      (s.txPhase ≠ .idle ∧ t = faulted s .rxDuringTx d.toNat)) := by
  obtain ⟨h1, ⟨hp, ho⟩ | hf⟩ := whenListening_next h
  · refine ⟨h1, ?_⟩
    split at ho
    · cases ho
      exact .inr (.inl ⟨hp, .inl ‹_›, rfl⟩)
    · split at ho
      · cases ho
        exact .inl ⟨hp, ‹_›, ‹_›, rfl⟩
      · cases ho
        exact .inr (.inl ⟨hp, .inr (by omega), rfl⟩)
  · exact ⟨h1, .inr (.inr hf)⟩

theorem whenNotSending_next {s t : State} {n : Nat} {o : Host.Outcome State Fault Refusal}
    (h : whenNotSending s n o = .next t) :
    s.fault = none ∧ ((s.txPhase = .idle ∧ o = .next t) ∨ (s.txPhase ≠ .idle ∧ t = faulted s .txReentry n)) := by
  obtain ⟨h1, h2⟩ := whenEnabled_next h
  exact ⟨h1, whenPhase_next h2⟩

/-- What a command leaves: a transmission started, a result and nothing else, or the reentry fault. -/
theorem sendEncoded_cases (s : State) (r : ResultCode × List Byte) :
    (r.1 = .ok ∧ sendEncoded s r = start s r.2) ∨ (r.1 ≠ .ok ∧ sendEncoded s r = emit s (.result r.1)) := by
  by_cases h : r.1 = .ok
  · exact .inl ⟨h, by simp [sendEncoded, h]⟩
  · exact .inr ⟨h, by simp [sendEncoded, h]⟩

theorem execCmdTransmit_next {s t : State} {bs : List Byte} (h : execCmdTransmit bs s = .next t) :
    s.fault = none ∧ ((s.txPhase = .idle ∧ bs.length ≤ s.cfg.txCap ∧ t = start s bs) ∨
      (s.txPhase = .idle ∧ s.cfg.txCap < bs.length ∧ t = emit s (.result .errOversize)) ∨
      (s.txPhase ≠ .idle ∧ t = faulted s .txReentry bs.length)) := by
  obtain ⟨h1, ⟨hp, ho⟩ | hf⟩ := whenNotSending_next h
  · refine ⟨h1, ?_⟩
    split at ho
    · cases ho
      exact .inr (.inl ⟨hp, ‹_›, rfl⟩)
    · cases ho
      exact .inl ⟨hp, by omega, rfl⟩
  · exact ⟨h1, .inr (.inr hf)⟩

theorem execCmdSendWeight_next {s t : State} {v : Decimal} (h : execCmdSendWeight v s = .next t) :
    s.fault = none ∧ ((s.txPhase = .idle ∧ t = sendEncoded s (encWeight s.cfg (coreValue v))) ∨
      (s.txPhase ≠ .idle ∧ t = faulted s .txReentry 0)) := by
  obtain ⟨h1, h2⟩ := whenNotSending_next h
  refine ⟨h1, h2.imp_left fun ⟨hp, ho⟩ => ⟨hp, ?_⟩⟩
  cases ho
  rfl

theorem execCmdSendStatus_next {s t : State} {x : List Byte} (h : execCmdSendStatus x s = .next t) :
    s.fault = none ∧ ((s.txPhase = .idle ∧ t = sendEncoded s (encStatus s.cfg x)) ∨
      (s.txPhase ≠ .idle ∧ t = faulted s .txReentry 0)) := by
  obtain ⟨h1, h2⟩ := whenNotSending_next h
  refine ⟨h1, h2.imp_left fun ⟨hp, ho⟩ => ⟨hp, ?_⟩⟩
  cases ho
  rfl

theorem whenAwaiting_next {s t : State} {p : TxPhase} {c : FaultCode} {o : Host.Outcome State Fault Refusal}
    (h : whenAwaiting s p c o = .next t) :
    s.fault = none ∧ ((s.txPhase = p ∧ o = .next t) ∨ (s.txPhase ≠ p ∧ t = faulted s c (txPhaseCode s.txPhase))) := by
  obtain ⟨h1, h2⟩ := whenEnabled_next h
  exact ⟨h1, whenPhase_next h2⟩

theorem execTxWriteOk_next {s t : State} (h : execTxWriteOk s = .next t) :
    s.fault = none ∧ ((s.txPhase = .write ∧ s.txPos + 1 < s.txLen ∧
        ∃ b, readTx s (s.txPos + 1) = .ok b ∧ t = requestByte (advance s) b) ∨
      (s.txPhase = .write ∧ s.txLen ≤ s.txPos + 1 ∧ t = requestFlush (advance s)) ∨
      (s.txPhase ≠ .write ∧ t = faulted s .unexpectedWriteResp (txPhaseCode s.txPhase))) := by
  obtain ⟨h1, ⟨hp, ho⟩ | hf⟩ := whenAwaiting_next h
  · refine ⟨h1, ?_⟩
    split at ho
    · split at ho
      · cases ho
      · cases ho
        exact .inl ⟨hp, ‹_›, _, ‹_›, rfl⟩
    · cases ho
      exact .inr (.inl ⟨hp, by omega, rfl⟩)
  · exact ⟨h1, .inr (.inr hf)⟩

theorem execTxWriteErr_next {s t : State} (h : execTxWriteErr s = .next t) :
    s.fault = none ∧ ((s.txPhase = .write ∧ t = requestFlush (noteError s)) ∨
      (s.txPhase ≠ .write ∧ t = faulted s .unexpectedWriteResp (txPhaseCode s.txPhase))) := by
  obtain ⟨h1, h2⟩ := whenAwaiting_next h
  refine ⟨h1, h2.imp_left fun ⟨hp, ho⟩ => ⟨hp, ?_⟩⟩
  cases ho
  rfl

theorem execTxFlushDone_next {s t : State} (h : execTxFlushDone s = .next t) :
    s.fault = none ∧
      ((s.txPhase = .flush ∧ t = emit (releaseTx s) (.result (txResult s))) ∨
        (s.txPhase ≠ .flush ∧ t = faulted s .unexpectedFlushDone (txPhaseCode s.txPhase))) := by
  obtain ⟨h1, h2⟩ := whenAwaiting_next h
  refine ⟨h1, h2.imp_left fun ⟨hp, ho⟩ => ⟨hp, ?_⟩⟩
  cases ho
  rfl

theorem answerEncode_next {s t : State} {r : ResultCode × List Byte} (h : answerEncode s r = .next t) :
    s.fault = none ∧ t = emit s (.encOut r.1 r.2) := by
  obtain ⟨h1, h2⟩ := whenEnabled_next h
  exact ⟨h1, by cases h2; rfl⟩

theorem answerDecode_next {s t : State} {m : Message} (h : answerDecode s m = .next t) :
    s.fault = none ∧ t = emit s (.decOut m) := by
  obtain ⟨h1, h2⟩ := whenEnabled_next h
  exact ⟨h1, by cases h2; rfl⟩

/-- What a decode query answers is the meaning of the row its payload selects (41_codec_decode.md R142). -/
theorem decodeTag_cases (p : List Byte) :
    (tagOf (fieldsOf p) = .weight ∧ decodeTag p = .decodeWeight (fieldsOf p)) ∨
      (tagOf (fieldsOf p) = .status ∧ decodeTag p = .decodeStatus (fieldsOf p)) ∨
      (tagOf (fieldsOf p) = .brain ∧ decodeTag p = .decodeBrain (fieldsOf p)) ∨
      (tagOf (fieldsOf p) = .unknown ∧ decodeTag p = .decodeUnknown p) := by
  unfold decodeTag
  cases tagOf (fieldsOf p) <;> simp

end Sys2Proof.Machine
end

