-- ==== Sys2Proof/Laws/Numbers.lean ====
section
/-! SUPPORT. The digits that rendering writes and the numbers that digits stand for. -/

namespace Sys2Proof.Machine

/-- The number of two runs of digits put together. -/
theorem digitsValue_append (ds es : List (Fin 10)) :
    digitsValue (ds ++ es) = digitsValue ds * 10 ^ es.length + digitsValue es := by
  have key : ∀ (es : List (Fin 10)) (n : Nat),
      es.foldl (fun n d => 10 * n + d.val) n = n * 10 ^ es.length + digitsValue es := by
    intro es
    induction es with
    | nil => simp [digitsValue]
    | cons d es ih =>
      intro n
      unfold digitsValue
      simp only [List.foldl_cons, ih, List.length_cons]
      ring
  rw [digitsValue, List.foldl_append, key]
  rfl

theorem digitsValue_zeros (k : Nat) : digitsValue (List.replicate k 0) = 0 := by
  induction k with
  | zero => rfl
  | succ k ih => rw [List.replicate_succ, ← List.singleton_append, digitsValue_append, ih]; simp [digitsValue]

/-- What `decFuel` writes, given fuel enough: the number's digits, without leading zeros. -/
theorem decFuel_spec : ∀ (fuel n : Nat), n < fuel → ∃ ds : List (Fin 10), decFuel fuel n = ds.map digitByte ∧
    digitsValue ds = n ∧ ds ≠ [] ∧ (ds.head? = some 0 → ds = [0]) ∧ ∀ N, 1 ≤ N → n < 10 ^ N → ds.length ≤ N := by
  intro fuel
  induction fuel with
  | zero => intro n h; omega
  | succ fuel ih =>
    intro n h
    rw [decFuel]
    split
    · rename_i hn
      exact ⟨[⟨n, hn⟩], rfl, by simp [digitsValue], by simp, by simp, by simpa using fun N h _ => h⟩
    · rename_i hn
      obtain ⟨ds, h1, h2, h3, h4, h5⟩ := ih (n / 10) (by omega)
      refine ⟨ds ++ [⟨n % 10, by omega⟩], ?_, ?_, by simp, ?_, ?_⟩
      · rw [h1, List.map_append, List.map_singleton]
        rfl
      · rw [digitsValue_append, h2]
        simp [digitsValue]
        omega
      · intro hh
        obtain ⟨d, ds', rfl⟩ := List.exists_cons_of_ne_nil h3
        simp only [List.cons_append, List.head?_cons, Option.some.injEq] at hh
        rw [h4 (by simp [hh])] at h2
        simp [digitsValue] at h2
        omega
      · intro N hN hlt
        obtain ⟨M, rfl⟩ : ∃ M, N = M + 1 := ⟨N - 1, by omega⟩
        have hM : 1 ≤ M := by
          rcases M with _ | M
          · simp at hlt
            omega
          · omega
        have := h5 M hM (by rw [pow_succ] at hlt; omega)
        simp
        omega

/-- `dec(n)` (40_codec_encode.md R101): the digits of `n`, no leading zeros, at most `N` of them for `n < 10^N`. -/
theorem dec_spec (n : Nat) : ∃ ds : List (Fin 10), dec n = ds.map digitByte ∧ digitsValue ds = n ∧ ds ≠ [] ∧
    (ds.head? = some 0 → ds = [0]) ∧ ∀ N, 1 ≤ N → n < 10 ^ N → ds.length ≤ N :=
  decFuel_spec _ _ (by omega)

/-- `pad(N, dec(n))` (R101): exactly `N` digits of the same number. -/
theorem pad_spec (N n : Nat) (hN : 1 ≤ N) (h : n < 10 ^ N) : ∃ ds : List (Fin 10),
    pad N (dec n) = ds.map digitByte ∧ ds.length = N ∧ digitsValue ds = n := by
  obtain ⟨ds, h1, h2, _, _, h5⟩ := dec_spec n
  have := h5 N hN h
  refine ⟨List.replicate (N - ds.length) 0 ++ ds, ?_, by simp; omega,
    by rw [digitsValue_append, digitsValue_zeros, h2]; simp⟩
  rw [pad, h1]
  simp
  right
  rfl

/-- `scaled` is the rounded number of R101, which is never negative. -/
theorem scaled_floor (N : Nat) (v : Rat) : (scaled N v : Int) = ⌊|v| * (10 : Rat) ^ N + 1 / 2⌋ :=
  Int.toNat_of_nonneg (Int.floor_nonneg.2 (by positivity))

end Sys2Proof.Machine
end

