-- ==== Sys2Proof/Laws/PerInstr.lean ====
section
/-! SUPPORT. The family OpcodeRow: what each well-formed instruction encodes to begins with the bits of its row of
spec/opcode_table.json. -/

namespace Sys2Proof.Laws.OpcodeRow

/-- The encoding begins with the bits of the instruction's row. -/
def Statement (i : Instr) : Prop := i.wellFormed = true → i.row.matchesBytes (encode i) = true

/-- A one-byte row is matched by its header byte. -/
theorem header {h : Byte} {bs : List Byte} : OpcodeRow.matchesBytes ⟨8, h.toNat, 0xFF⟩ (h :: bs) = true := by
  have : h.toNat &&& 255 = h.toNat := by rw [show (255 : Nat) = 2 ^ 8 - 1 by rfl, Nat.and_two_pow_sub_one_eq_mod]; omega
  simp [OpcodeRow.matchesBytes, beValue, this]

/-- A tag row is matched by a payload that begins with the tag. -/
theorem tagged {tag : List Byte} {F : List (List Byte)} (h : fieldListOk tag F = true) :
    ∃ rest, joinFields F = tag ++ rest := by
  simp only [fieldListOk, Bool.and_eq_true, decide_eq_true_eq] at h
  rcases F with _ | ⟨f, _ | ⟨g, fs⟩⟩
  · simp at h
  · simp only [List.head?_cons, Option.some.injEq] at h
    exact ⟨[], by simp [joinFields, h.1]⟩
  · simp only [List.head?_cons, Option.some.injEq] at h
    exact ⟨_, by rw [joinFields, h.1]⟩

theorem reset : Statement .reset := fun _ => header
theorem rxStart : Statement .rxStart := fun _ => by decide
theorem rxEnd : Statement .rxEnd := fun _ => by decide
theorem rxData (d : Byte) : Statement (.rxData d) := fun _ => by revert d; decide
theorem cmdTransmit (bs : List Byte) : Statement (.cmdTransmit bs) := fun _ => header
theorem cmdSendWeight (v : Decimal) : Statement (.cmdSendWeight v) := fun _ => header
theorem cmdSendStatus (t : List Byte) : Statement (.cmdSendStatus t) := fun _ => header
theorem txWriteOk : Statement .txWriteOk := fun _ => header
theorem txWriteErr : Statement .txWriteErr := fun _ => header
theorem txFlushDone : Statement .txFlushDone := fun _ => header
theorem encodeWeight (v : Decimal) : Statement (.encodeWeight v) := fun _ => header
theorem encodeStatus (t : List Byte) : Statement (.encodeStatus t) := fun _ => header
theorem encodeBrain (t p v c : Decimal) : Statement (.encodeBrain t p v c) := fun _ => header
theorem cmdDecode (p : List Byte) : Statement (.cmdDecode p) := fun _ => header

theorem decodeWeight (F : List (List Byte)) : Statement (.decodeWeight F) := fun h => by
  obtain ⟨rest, hr⟩ := tagged h
  simp [Instr.row, encode, hr, OpcodeRow.matchesBytes, beValue]
  omega

theorem decodeStatus (F : List (List Byte)) : Statement (.decodeStatus F) := fun h => by
  obtain ⟨rest, hr⟩ := tagged h
  simp [Instr.row, encode, hr, OpcodeRow.matchesBytes, beValue]
  omega

theorem decodeBrain (F : List (List Byte)) : Statement (.decodeBrain F) := fun h => by
  obtain ⟨rest, hr⟩ := tagged h
  simp [Instr.row, encode, hr, OpcodeRow.matchesBytes, beValue]
  omega

theorem decodeUnknown (p : List Byte) : Statement (.decodeUnknown p) := fun _ => by
  simp [Instr.row, encode, OpcodeRow.matchesBytes, beValue]

end Sys2Proof.Laws.OpcodeRow
end

