-- ==== Sys2Proof/Laws/Run.lean ====
section
/-! SUPPORT. Runs of events put together, what START does in one line, and the tag by the first field. -/

namespace Sys2Proof.Machine

theorem runEvents_append {xs ys : List Instr} {s t : State} (h : runEvents xs s = .next t) :
    runEvents (xs ++ ys) s = runEvents ys t := by
  induction xs generalizing s with
  | nil =>
    simp only [runEvents, Host.Outcome.next.injEq] at h
    rw [h, List.nil_append]
  | cons x xs ih =>
    simp only [List.cons_append, runEvents] at h ⊢
    cases hx : exec x s with
    | next u =>
      rw [hx] at h
      exact ih h
    | fault f => rw [hx] at h; cases h
    | refused r => rw [hx] at h; cases h

/-- `START(bs)` makes the change that `Started` names (43_transceiver.md R211). -/
theorem start_started (s : State) (bs : List Byte) : Started s (start s bs) bs := by
  refine ⟨fun i => ?_, ?_⟩
  · cases bs <;> simp [memRead_memWriteList]
  · cases bs <;> simp [start, requestFlush, requestByte, setDir, loadTx, enterWrite]

/-- The tag of a payload by its first field (41_codec_decode.md R142). -/
theorem tagOf_fieldsOf (p : List Byte) :
    tagOf (fieldsOf p) = if firstField p = tagWeight then .weight else if firstField p = tagStatus then .status
      else if firstField p = tagBrain then .brain else .unknown := by
  unfold tagOf
  rw [fieldsOf_head]
  simp only [Option.some.injEq]

end Sys2Proof.Machine
end

