-- ==== Sys2Proof/Tests/Slice0.lean ====
section
/-! SUPPORT. Tests. Expected results are the spec's: the bit patterns of 30_encoding.md R80 to R82 and the vectors of
95_test_vectors.md, named with each test. A `test_witness_…` meets the hypotheses of the obligation it names. -/

namespace Sys2Proof.Machine.Tests

open Sys2Proof Sys2Proof.Machine

/-! ### Small states -/

/-- The capacities of the small vectors (95_test_vectors.md sections 4 and 5): `RX_CAP = 4`, `TX_CAP = 16`. -/
def small : State := { State.reset with cfg := { Config.initial with rxCap := 4, txCap := 16 } }

/-- After `<AB`: room for one byte more. -/
def receiving : State := { small with rxState := .acc, rxIdx := 2, rxBuf := [(0, 0x41), (1, 0x42)] }

/-- After `<ABC`: full. -/
def full : State := { small with rxState := .acc, rxIdx := 3, rxBuf := [(0, 0x41), (1, 0x42), (2, 0x43)] }

/-- After `xmit "<A>"` (T1). -/
def writing : State :=
  { small with
    dir := .drive
    txPhase := .write
    txLen := 3
    txBuf := [(0, 0x3C), (1, 0x41), (2, 0x3E)]
    handed := [⟨0x3C, .asked⟩] }

/-- Awaiting the answer to the last byte. -/
def lastByte : State :=
  { writing with txPos := 2, handed := [⟨0x3C, .sent⟩, ⟨0x41, .sent⟩, ⟨0x3E, .asked⟩] }

/-- Every byte answered, the flush pending. -/
def flushing : State :=
  { writing with txPhase := .flush, txPos := 3, handed := [⟨0x3C, .sent⟩, ⟨0x41, .sent⟩, ⟨0x3E, .sent⟩] }

/-- A fault is recorded (F7). -/
def stuck : State := { writing with fault := some ⟨.txReentry, 4⟩ }

/-- The next state, if there is one. -/
def after : Host.Outcome State Fault Refusal → Option State
  | .next s => some s
  | .fault _ => none
  | .refused _ => none

/-- Why a step stopped, if it did. -/
def stop : Host.Outcome State Fault Refusal → Option (Fault ⊕ Refusal)
  | .next _ => none
  | .fault f => some (.inl f)
  | .refused r => some (.inr r)

/-- What a step emitted and the status view after it; nothing for a stop. -/
def seen : Host.Outcome State Fault Refusal → Option (List OutEvent × BitVec 32 × BitVec 32)
  | .next s => some (s.trace, statusWord s, txStatWord s)
  | .fault _ => none
  | .refused _ => none

/-- 12.34. -/
def num1234 : Decimal := ⟨none, [1, 2], some [3, 4]⟩

/-- 0.5, written `.5`. -/
def half : Decimal := ⟨none, [], some [5]⟩

/-- A number of `n` digits. -/
def long (n : Nat) : Decimal := ⟨none, List.replicate n 1, none⟩

/-! ### WellFormed refuses an ill-formed term at each check -/

theorem test_wf_numeral : numOperandOk ⟨some .plus, [], some []⟩ = false ∧ numOperandOk ⟨none, [], none⟩ = false := by decide
theorem test_wf_numeral_length : numOperandOk (long 256) = false ∧ numOperandOk (long 255) = true := by decide +kernel
/-- A text of `n` bytes. -/
def zeros (n : Nat) : List Byte := List.replicate n 0

theorem test_wf_len16 : lenOperandOk (zeros 65536) = false ∧ lenOperandOk (zeros 65535) = true :=
  ⟨decide_eq_false (by rw [zeros, List.length_replicate]; omega), decide_eq_true (by rw [zeros, List.length_replicate])⟩
theorem test_wf_rx_data : (Instr.rxData 0x3C).wellFormed = false ∧ (Instr.rxData 0x3E).wellFormed = false := by decide
theorem test_wf_transmit : (Instr.cmdTransmit (zeros 65536)).wellFormed = false := test_wf_len16.1
theorem test_wf_send_status : (Instr.cmdSendStatus (zeros 65536)).wellFormed = false := test_wf_len16.1
theorem test_wf_encode_status : (Instr.encodeStatus (zeros 65536)).wellFormed = false := test_wf_len16.1
theorem test_wf_decode : (Instr.cmdDecode (zeros 65536)).wellFormed = false := test_wf_len16.1
theorem test_wf_weights : (Instr.cmdSendWeight ⟨none, [], none⟩).wellFormed = false ∧
    (Instr.encodeWeight ⟨none, [], some []⟩).wellFormed = false := by decide
theorem test_wf_brain : (Instr.encodeBrain ⟨none, [], none⟩ half half half).wellFormed = false ∧
    (Instr.encodeBrain half ⟨none, [], none⟩ half half).wellFormed = false ∧
    (Instr.encodeBrain half half ⟨none, [], none⟩ half).wellFormed = false ∧
    (Instr.encodeBrain half half half ⟨none, [], none⟩).wellFormed = false := by decide
theorem test_wf_rows_tag : (Instr.decodeWeight [tagStatus]).wellFormed = false ∧
    (Instr.decodeStatus [tagBrain]).wellFormed = false ∧
    (Instr.decodeBrain []).wellFormed = false ∧ (Instr.decodeUnknown (tagWeight ++ [0x7C])).wellFormed = false := by decide
theorem test_wf_rows_separator : (Instr.decodeWeight [tagWeight, [0x7C]]).wellFormed = false ∧
    (Instr.decodeStatus [tagStatus, [0x7C]]).wellFormed = false ∧ (Instr.decodeBrain [tagBrain, [0x7C]]).wellFormed = false ∧
    (Instr.decodeUnknown tagStatus).wellFormed = false ∧ (Instr.decodeUnknown tagBrain).wellFormed = false := by decide

/-! ### Every constructor's decoding, from the table of R80 and the vectors of 95_test_vectors.md section 2 -/

theorem test_decode_reset : decodeEvent [0b0001_0000] = .ok (.reset, []) := by decide
theorem test_decode_rx_start : decodeEvent [0b0010_0000, 0x3C] = .ok (.rxStart, []) := by decide
theorem test_decode_rx_end : decodeEvent [0b0010_0000, 0x3E] = .ok (.rxEnd, []) := by decide
theorem test_decode_rx_data : decodeEvent [0b0010_0000, 0x7C, 0x99] = .ok (.rxData 0x7C, [0x99]) ∧
    decodeEvent [0x20, 0x00] = .ok (.rxData 0x00, []) ∧ decodeEvent [0x20, 0xFF] = .ok (.rxData 0xFF, []) := by decide
theorem test_decode_transmit : decodeEvent [0b0011_0000, 0x03, 0x00, 0x3C, 0x41, 0x3E] = .ok (.cmdTransmit [0x3C, 0x41, 0x3E], []) ∧
    decodeEvent [0x30, 0x00, 0x00] = .ok (.cmdTransmit [], []) := by decide
theorem test_decode_send_weight : decodeEvent [0b0100_0000, 0x05, 0x31, 0x32, 0x2E, 0x33, 0x34] = .ok (.cmdSendWeight num1234, []) ∧
    decodeEvent [0x40, 0x02, 0x35, 0x2E] = .ok (.cmdSendWeight ⟨none, [5], some []⟩, []) := by decide
theorem test_decode_send_status : decodeEvent [0b0101_0000, 0x02, 0x00, 0x6F, 0x6B] = .ok (.cmdSendStatus [0x6F, 0x6B], []) := by decide
theorem test_decode_write_ok : decodeEvent [0b0110_0000] = .ok (.txWriteOk, []) := by decide
theorem test_decode_write_err : decodeEvent [0b0110_0001] = .ok (.txWriteErr, []) := by decide
theorem test_decode_flush_done : decodeEvent [0b0111_0000] = .ok (.txFlushDone, []) := by decide
theorem test_decode_encode_weight : decodeEvent [0b1000_0000, 0x02, 0x2D, 0x31] = .ok (.encodeWeight ⟨some .minus, [1], none⟩, []) := by
  decide
theorem test_decode_encode_status : decodeEvent [0b1000_0001, 0x00, 0x00] = .ok (.encodeStatus [], []) := by decide
/-- Time, percent, voltage, current, in this order. -/
theorem test_decode_encode_brain : decodeEvent [0b1000_0010, 0x01, 0x31, 0x01, 0x32, 0x01, 0x33, 0x01, 0x34] =
    .ok (.encodeBrain ⟨none, [1], none⟩ ⟨none, [2], none⟩ ⟨none, [3], none⟩ ⟨none, [4], none⟩, []) := by decide
theorem test_decode_cmd_decode : decodeEvent [0b1001_0000, 0x00, 0x00] = .ok (.cmdDecode [], []) := by decide
/-- `WEIGHT|1`, `STATUS|`, `BRAIN||5`, `WEIGHT |1` (section 3, V-DEC). -/
theorem test_decode_rows :
    decodeTag [0x57, 0x45, 0x49, 0x47, 0x48, 0x54, 0x7C, 0x31] = .decodeWeight [tagWeight, [0x31]] ∧
      decodeTag [0x53, 0x54, 0x41, 0x54, 0x55, 0x53, 0x7C] = .decodeStatus [tagStatus, []] ∧
      decodeTag [0x42, 0x52, 0x41, 0x49, 0x4E, 0x7C, 0x7C, 0x35] = .decodeBrain [tagBrain, [], [0x35]] ∧
      decodeTag [0x57, 0x45, 0x49, 0x47, 0x48, 0x54, 0x20, 0x7C, 0x31] =
        .decodeUnknown [0x57, 0x45, 0x49, 0x47, 0x48, 0x54, 0x20, 0x7C, 0x31] := by decide
/-- `LEN16` is low byte first: 0x0100 is announced, one byte is there. -/
theorem test_len16_byte_order : decodeEvent [0x30, 0x00, 0x01, 0x41] = .error .truncatedEvent ∧
    encode (.cmdTransmit (List.replicate 256 0x41)) = 0x30 :: 0x00 :: 0x01 :: List.replicate 256 0x41 := by decide +kernel
/-- The words of the opcode table, and one whose zero operand is no number. -/
theorem test_table_words : decodeTableWord 8 0x10 = some .reset ∧ decodeTableWord 16 0x203C = some .rxStart ∧
    decodeTableWord 16 0x203E = some .rxEnd ∧ decodeTableWord 16 0x2000 = some (.rxData 0) ∧
    decodeTableWord 8 0x30 = some (.cmdTransmit []) ∧ decodeTableWord 8 0x40 = none ∧
    decodeTableWord 48 0x574549474854 = some (.decodeWeight [tagWeight]) ∧
    decodeTableWord 40 0x425241494E = some (.decodeBrain [tagBrain]) := by decide
/-- The step runs the word placed before it. -/
theorem test_fetch_word : after (step (State.reset.withFetchWord 16 0x203C)) = after (exec .rxStart State.reset) ∧
    after (step (State.reset.withFetchWord 40 0x425241494E)) = after (exec (.cmdDecode tagBrain) State.reset) := by decide +kernel

theorem test_refused_modifiers : decodeEvent [0x11] = .error .reservedModifier ∧
    decodeEvent [0x21, 0x41] = .error .reservedModifier ∧
    decodeEvent [0x62] = .error .reservedModifier ∧ decodeEvent [0x71] = .error .reservedModifier ∧
    decodeEvent [0x83] = .error .reservedModifier ∧ decodeEvent [0x91] = .error .reservedModifier := by decide
theorem test_refused_kinds : decodeEvent [0x00] = .error .reservedKind ∧ decodeEvent [0xA0] = .error .reservedKind ∧
    decodeEvent [0xB7] = .error .reservedKind ∧ decodeEvent [0xFF] = .error .reservedKind := by decide
theorem test_refused_numbers : decodeEvent [0x40, 0x02, 0x2B, 0x2E] = .error .badNum ∧
    decodeEvent [0x40, 0x00] = .error .badNum ∧
    decodeEvent [0x40, 0x03, 0x31, 0x2C, 0x35] = .error .badNum ∧
    decodeEvent [0x40, 0x03, 0x31, 0x65, 0x33] = .error .badNum := by
  decide
theorem test_refused_truncated : decodeEvent [0x30, 0x05, 0x00, 0x3C, 0x41] = .error .truncatedEvent ∧
    decodeEvent [0x82, 0x01, 0x31, 0x01, 0x32, 0x01, 0x33] = .error .truncatedEvent := by decide

/-! ### Numbers (V-FMT, V-DEC) -/

theorem test_fmt_ties : fmt 2 (1 / 200) = [0x30, 0x2E, 0x30, 0x31] ∧ fmt 2 (-1 / 200) = [0x2D, 0x30, 0x2E, 0x30, 0x31] ∧
    fmt 1 (-5 / 4) = [0x2D, 0x31, 0x2E, 0x33] := by decide +kernel
theorem test_fmt_sign_and_carry : fmt 2 (-1 / 1000) = [0x2D, 0x30, 0x2E, 0x30, 0x30] ∧
    fmt 2 (99995 / 1000) = [0x31, 0x30, 0x30, 0x2E, 0x30, 0x30] ∧
    fmt 2 (2 / 3) = [0x30, 0x2E, 0x36, 0x37] := by decide +kernel
/-- `12.3x`, `1e3`, ` 5`, `-`, `+.5`, `007`. -/
theorem test_parse : parseNum Config.initial [0x31, 0x32, 0x2E, 0x33, 0x78] = 123 / 10 ∧
    parseNum Config.initial [0x31, 0x65, 0x33] = 1 ∧
    parseNum Config.initial [0x20, 0x35] = 0 ∧ parseNum Config.initial [0x2D] = 0 ∧
    parseNum Config.initial [0x2B, 0x2E, 0x35] = 1 / 2 ∧ parseNum Config.initial [0x30, 0x30, 0x37] = 7 := by decide +kernel
/-- `A||B|`. -/
theorem test_split : fieldsOf [0x41, 0x7C, 0x7C, 0x42, 0x7C] = [[0x41], [], [0x42], []] ∧ fieldsOf [] = [[]] := by decide

/-! ### Assembly text (R84, R85; the encodings are those of 95_test_vectors.md sections 5 and 8) -/

theorem test_asm_lines : assembleText (ascii "reset") = some [0x10] ∧ assembleText (ascii "rx 0x3C") = some [0x20, 0x3C] ∧
    assembleText (ascii "rx 'x'  ; 20 78") = some [0x20, 0x78] ∧
    assembleText (ascii "xmit \"<A>\"") = some [0x30, 0x03, 0x00, 0x3C, 0x41, 0x3E] ∧
    assembleText (ascii "send_weight 12.34") = some [0x40, 0x05, 0x31, 0x32, 0x2E, 0x33, 0x34] ∧
    assembleText (ascii "decode \"\\x3C;\"") = some [0x90, 0x02, 0x00, 0x3C, 0x3B] := by decide +kernel
theorem test_asm_pseudo : assembleText (ascii "xmit_ok \"<A>\"") = some [0x30, 0x03, 0x00, 0x3C, 0x41, 0x3E, 0x60, 0x60, 0x60, 0x70] ∧
    assembleText (ascii "; text\nwr_ok*3\nwr_ok") = some [0x60, 0x60, 0x60, 0x60] ∧
    assembleText (ascii "rxs \"<>\"") = some [0x20, 0x3C, 0x20, 0x3E] ∧
    assembleText (ascii "enc_brain 1, .5, -2., +3") =
      some [0x82, 0x01, 0x31, 0x02, 0x2E, 0x35, 0x03, 0x2D, 0x32, 0x2E, 0x02, 0x2B, 0x33] ∧
    assembleText (ascii "xmit <A>") = none := by decide +kernel

/-- What the rule leaves open and the reader rejects (log entry 21): a number of 256 bytes, a byte of 0x80 and above as it stands. -/
theorem test_asm_rejected : assembleText (ascii "send_weight " ++ List.replicate 256 0x31) = none ∧
    (assembleText (ascii "send_weight " ++ List.replicate 255 0x31)).isSome = true ∧
    assembleText (ascii "xmit \"" ++ [0x80, 0x22]) = none ∧
    assembleText (ascii "xmit \"\\x80\"") = some [0x30, 0x01, 0x00, 0x80] := by decide +kernel

/-! ### One step of each instruction (95_test_vectors.md sections 3 to 7) -/

/-- X1, and X3: the line is released only if driven, and no result is emitted. -/
theorem test_reset : seen (exec .reset State.reset) = some ([], 0, 0) ∧
    seen (exec .reset { writing with txPos := 1 }) = some ([.dir .listen], 0, 0) := by decide
/-- F11. -/
theorem test_reset_after_fault : stop (exec .reset stuck) = some (.inl (.notEnabled ⟨.txReentry, 4⟩)) := by decide
/-- `<ABCDE<`, and F9. -/
theorem test_rx_start : seen (exec .rxStart full) = some ([], 0x00000001, 0) ∧
    after (exec .rxStart writing) = some { writing with fault := some ⟨.rxDuringTx, 0x3C⟩ } := by decide
/-- `<ABC>` and `>` in IDLE. -/
theorem test_rx_end : seen (exec .rxEnd full) = some
    ([.frameOut [0x41, 0x42, 0x43], .msgOut (.unknown [0x41, 0x42, 0x43])], 0, 0) ∧
    after (exec .rxEnd small) = some small := by decide +kernel
/-- `<ABC`, and the discarded `D`. -/
theorem test_rx_data : after (exec (.rxData 0x43) receiving) = some full ∧ after (exec (.rxData 0x44) full) = some full ∧
    after (exec (.rxData 0x44) small) = some small := by decide
/-- F10. -/
theorem test_rx_data_fault : after (exec (.rxData 0x78) flushing) = some
    { flushing with fault := some ⟨.rxDuringTx, 0x78⟩ } := by decide
/-- T1 and T2. -/
theorem test_transmit : seen (exec (.cmdTransmit [0x3C, 0x41, 0x3E]) small) =
      some ([.dir .drive, .txReq 0x3C], 0x00000006, 0x00000003) ∧
    seen (exec (.cmdTransmit []) small) = some ([.dir .drive, .flushReq], 0x0000000A, 0) := by decide
/-- T9 and F7. -/
theorem test_transmit_limits :
    seen (exec (.cmdTransmit (List.replicate 16 0x78)) small) = some ([.dir .drive, .txReq 0x78], 0x00000006, 0x00000010) ∧
    seen (exec (.cmdTransmit (List.replicate 17 0x78)) small) = some ([.result .errOversize], 0, 0) ∧
    after (exec (.cmdTransmit [0x3C, 0x42, 0x42, 0x3E]) writing) = some stuck := by decide
/-- T8, and T9 with 1234567.89. -/
theorem test_send_weight : seen (exec (.cmdSendWeight num1234) small) = some
    ([.dir .drive, .txReq 0x3C], 0x00000006, 0x0000000E) ∧
    seen (exec (.cmdSendWeight ⟨none, [1, 2, 3, 4, 5, 6, 7], some [8, 9]⟩) small) = some ([.result .errOversize], 0, 0) := by
  decide +kernel
/-- T6, T7, and T9: ERR_TEXT before ERR_OVERSIZE. -/
theorem test_send_status : seen (exec (.cmdSendStatus []) small) = some
    ([.dir .drive, .txReq 0x3C], 0x00000006, 0x00000009) ∧
    seen (exec (.cmdSendStatus [0x61, 0x3E, 0x62]) small) = some ([.result .errText], 0, 0) ∧
    seen (exec (.cmdSendStatus (0x7C :: List.replicate 7 0x32)) small) = some ([.result .errText], 0, 0) ∧
    seen (exec (.cmdSendStatus (List.replicate 8 0x32)) small) = some ([.result .errOversize], 0, 0) := by decide
/-- T1: the second byte, and the flush after the last. -/
theorem test_write_ok : seen (exec .txWriteOk writing) = some ([.txReq 0x41], 0x00000006, 0x00010003) ∧
    seen (exec .txWriteOk lastByte) = some ([.flushReq], 0x0000000A, 0x00030003) := by decide
/-- F1 and F5. -/
theorem test_write_ok_fault : after (exec .txWriteOk small) = some { small with fault := some ⟨.unexpectedWriteResp, 0⟩ } ∧
    after (exec .txWriteOk flushing) = some { flushing with fault := some ⟨.unexpectedWriteResp, 2⟩ } := by decide
/-- T3 and F2. -/
theorem test_write_err : seen (exec .txWriteErr writing) = some ([.flushReq], 0x0000001A, 0x00000003) ∧
    after (exec .txWriteErr small) = some { small with fault := some ⟨.unexpectedWriteResp, 0⟩ } := by decide
/-- T1 and T3: the result, and `tx_err` kept. -/
theorem test_flush_done : seen (exec .txFlushDone flushing) = some ([.dir .listen, .result .ok], 0, 0x00030003) ∧
    seen (exec .txFlushDone { flushing with txErr := true, txPos := 0 }) =
      some ([.dir .listen, .result .errWrite], 0x00000010, 0x00000003) := by decide
/-- F4. -/
theorem test_flush_done_fault : after (exec .txFlushDone writing) = some
    { writing with fault := some ⟨.unexpectedFlushDone, 1⟩ } := by
  decide
/-- V-ENC: 1234.56 is 16 bytes, 12345.67 is 17. -/
theorem test_encode_weight : seen (exec (.encodeWeight ⟨none, [1, 2, 3, 4], some [5, 6]⟩) small) =
      some ([.encOut .ok [0x3C, 0x57, 0x45, 0x49, 0x47, 0x48, 0x54, 0x7C, 0x31, 0x32, 0x33, 0x34, 0x2E, 0x35, 0x36, 0x3E]], 0, 0) ∧
    seen (exec (.encodeWeight ⟨none, [1, 2, 3, 4, 5], some [6, 7]⟩) small) = some ([.encOut .errOversize []], 0, 0) := by
  decide +kernel
/-- V-ENC: the empty text, and `a<b`. -/
theorem test_encode_status : seen (exec (.encodeStatus []) small) =
      some ([.encOut .ok [0x3C, 0x53, 0x54, 0x41, 0x54, 0x55, 0x53, 0x7C, 0x3E]], 0, 0) ∧
    seen (exec (.encodeStatus [0x61, 0x3C, 0x62]) small) = some ([.encOut .errText []], 0, 0) := by decide
/-- V-ENC: -1.25, 0.05, -0.005, 0 give `<BRAIN|-1.3|0.1|-0.01|0.00>`. -/
theorem test_encode_brain :
    seen (exec (.encodeBrain ⟨some .minus, [1], some [2, 5]⟩ ⟨none, [0], some [0, 5]⟩ ⟨some .minus, [0], some [0, 0, 5]⟩
        ⟨none, [0], none⟩) State.reset) =
      some ([.encOut .ok [0x3C, 0x42, 0x52, 0x41, 0x49, 0x4E, 0x7C, 0x2D, 0x31, 0x2E, 0x33, 0x7C, 0x30, 0x2E, 0x31, 0x7C, 0x2D,
        0x30, 0x2E, 0x30, 0x31, 0x7C, 0x30, 0x2E, 0x30, 0x30, 0x3E]], 0, 0) := by decide +kernel
/-- T10: a query in mid-transmission. -/
theorem test_cmd_decode : after (exec (.cmdDecode [0x53, 0x54, 0x41, 0x54, 0x55, 0x53, 0x7C, 0x7A]) writing) = some
    { writing with trace := [.decOut (.status [0x7A])] } := by decide +kernel
/-- V-DEC: `WEIGHT|1|2`. -/
theorem test_decode_weight : after (exec (.decodeWeight [tagWeight, [0x31], [0x32]]) small) = some
    { small with trace := [.decOut (.weight 1)] } := by decide +kernel
/-- V-DEC: `STATUS|a|b`. -/
theorem test_decode_status : after (exec (.decodeStatus [tagStatus, [0x61], [0x62]]) small) = some
    { small with trace := [.decOut (.status [0x61])] } := by decide +kernel
/-- V-DEC: `BRAIN|1|2`. -/
theorem test_decode_brain : after (exec (.decodeBrain [tagBrain, [0x31], [0x32]]) small) = some
    { small with trace := [.decOut (.brain 1 2 0 0)] } := by decide +kernel
/-- V-DEC: the empty payload. -/
theorem test_decode_unknown : after (exec (.decodeUnknown []) small) = some
    { small with trace := [.decOut (.unknown [])] } := by
  decide +kernel

/-! ### Witnesses: states that meet the invariant -/

theorem test_inv_receiving : Inv receiving :=
  { legal := by decide
    rx := by decide
    dir := by decide
    tx := by decide
    canonical := by decide
    bounds := by decide
    frame := fun i hi => by
      have : i < 2 := hi
      interval_cases i
      · exact ⟨0x41, by decide⟩
      · exact ⟨0x42, by decide⟩
    sent := fun i hi => absurd hi (by simp [receiving, small, State.reset]) }

theorem test_inv_writing : Inv writing :=
  { legal := by decide
    rx := by decide
    dir := by decide
    tx := by decide
    canonical := by decide
    bounds := by decide
    frame := fun i hi => absurd hi (by simp [writing, small, State.reset])
    sent := fun i hi => by
      have : i < 3 := hi
      interval_cases i
      · exact ⟨0x3C, by decide⟩
      · exact ⟨0x41, by decide⟩
      · exact ⟨0x3E, by decide⟩ }

theorem test_inv_flushing : Inv flushing :=
  { legal := by decide
    rx := by decide
    dir := by decide
    tx := by decide
    canonical := by decide
    bounds := by decide
    frame := test_inv_writing.frame
    sent := test_inv_writing.sent }

/-- A state that breaks the invariant: an open frame whose byte nothing wrote. -/
theorem test_inv_refuses : ¬ Inv { receiving with rxBuf := [(0, 0x41)] } := fun h => by
  obtain ⟨b, hb, _⟩ := h.frame 1 (by decide)
  cases hb

/-! ### Witnesses: encoding -/

theorem test_witness_event_bytes : (Instr.cmdSendWeight (long 255)).wellFormed = true ∧
    (Instr.cmdSendWeight (long 255)).isEvent = true ∧ (Instr.encodeBrain half num1234 half half).wellFormed = true := by
  decide +kernel
theorem test_witness_reencode : decodeEvent [0x81, 0x01, 0x00, 0x41, 0x10] = .ok (.encodeStatus [0x41], [0x10]) := by decide
theorem test_witness_tag_rows : (Instr.decodeWeight [tagWeight, [0x31]]).wellFormed = true ∧
    (Instr.decodeStatus [tagStatus]).wellFormed = true ∧
    (Instr.decodeBrain [tagBrain, [], []]).wellFormed = true ∧ (Instr.decodeUnknown []).wellFormed = true ∧
    (Instr.decodeWeight [tagWeight, [0x31]]).isEvent = false ∧ (Instr.decodeUnknown []).isEvent = false := by decide
/-- The headers 0F, A0, FF; and 11, 1F, 62, 83, 91, 9F at the edges of the second clause. -/
theorem test_witness_reserved_headers : (0x0F : Byte).toNat / 16 = 0 ∧ 10 ≤ (0xA0 : Byte).toNat / 16 ∧
    10 ≤ (0xFF : Byte).toNat / 16 ∧
    ∀ h ∈ [(0x11 : Byte), 0x1F, 0x62, 0x83, 0x91, 0x9F], 1 ≤ h.toNat / 16 ∧ h.toNat / 16 ≤ 9 ∧
      (if h.toNat / 16 = 6 then 1 else if h.toNat / 16 = 8 then 2 else 0) < h.toNat % 16 := by decide
/-- The listed headers 10, 60, 61, 82 and 90 at the edges of the third clause. -/
theorem test_witness_listed_headers : ∀ h ∈ [(0x10 : Byte), 0x60, 0x61, 0x82, 0x90], 1 ≤ h.toNat / 16 ∧ h.toNat / 16 ≤ 9 ∧
    h.toNat % 16 ≤ (if h.toNat / 16 = 6 then 1 else if h.toNat / 16 = 8 then 2 else 0) := by decide
theorem test_witness_truncated : (Instr.cmdTransmit [0x41]).wellFormed = true ∧ (Instr.cmdTransmit [0x41]).isEvent = true ∧
    0 < 1 ∧ 1 < (encode (.cmdTransmit [0x41])).length ∧ 3 < (encode (.cmdTransmit [0x41])).length := by decide
theorem test_witness_malformed : ([0x2B, 0x2E] : List Byte).length ≤ 255 ∧ parseCore [0x2B, 0x2E] = none ∧
    parseCore [] = none ∧
    [half, half, half].length < 4 ∧ ∀ d ∈ [half, half, half], numOperandOk d = true := by decide
theorem test_witness_core : parseCore [0x2D, 0x2E, 0x35] = some ⟨some .minus, [], some [5]⟩ ∧
    (⟨some .minus, [], some [5]⟩ : Decimal).wellFormed = true := by decide

/-! ### Witnesses: the step and the faults -/

theorem test_witness_step : State.reset.refused = none ∧
    decodeEvent { State.reset with input := [0x20, 0x3C, 0x10] }.input = .ok (.rxStart, [0x10]) := by
  decide
theorem test_witness_step_refused : State.reset.fault = none ∧
    decodeEvent { State.reset with input := [0x62] }.input = .error .reservedModifier ∧
    { State.reset with refused := some .badNum }.refused = some .badNum ∧ State.reset.input = [] := by decide
/-- The three outcomes around an event: refused, then stopped; and stuck after a fault. -/
theorem test_step_refusal : after (step { State.reset with input := [0x62] }) = some
    { State.reset with input := [0x62], refused := some .reservedModifier } ∧
    stop (step { State.reset with input := [0x62], refused := some .reservedModifier }) = some
    (.inr (.refusedEvent .reservedModifier)) ∧
    stop (step { stuck with input := [0x10] }) = some (.inl (.notEnabled ⟨.txReentry, 4⟩)) := by decide
theorem test_witness_stuck : stuck.fault = some ⟨.txReentry, 4⟩ ∧ stuck.refused = none := by decide
/-- The fault table: an event that faults and one that does not. -/
theorem test_witness_fault_table : writing.fault = none ∧ FaultsWhen .rxStart writing ∧ ¬ FaultsWhen .txWriteOk writing ∧
    (after (exec .rxStart writing)).isSome = true ∧ (after (exec .txWriteOk writing)).isSome = true := by
  refine ⟨rfl, ?_, ?_, by decide, by decide⟩ <;> simp [FaultsWhen, writing]

/-! ### Witnesses: RESET and the receiver -/

theorem test_witness_reset : writing.fault = none ∧ writing.handed ≠ [] ∧ small.fault = none ∧ small.handed = [] := by decide
theorem test_witness_late_response : after (exec .reset small) = some small := by decide
theorem test_witness_rx_start : small.fault = none ∧ small.txPhase = .idle ∧ writing.fault = none ∧ writing.txPhase ≠ .idle ∧
    flushing.txPhase ≠ .idle := by decide
/-- The empty frame, the full one, IDLE, and a transmission in flight. -/
theorem test_witness_rx_end : full.fault = none ∧ full.txPhase = .idle ∧ full.rxState = .acc ∧ full.rxIdx ≤ full.cfg.rxCap ∧
    ([0x41, 0x42, 0x43] : List Byte) = (List.range full.rxIdx).map (memByte .rx full.rxBuf) ∧
    ([] : List Byte) = (List.range small.rxIdx).map (memByte .rx small.rxBuf) ∧ small.rxState = .idle ∧
    writing.txPhase ≠ .idle := by decide
/-- The last slot that is written, and the reserved one. -/
theorem test_witness_rx_data : receiving.fault = none ∧ receiving.txPhase = .idle ∧ receiving.rxState = .acc ∧
    receiving.rxIdx + 1 = receiving.cfg.rxCap - 1 ∧ full.rxState = .acc ∧ full.rxIdx = full.cfg.rxCap - 1 ∧
    small.rxState = .idle ∧
    writing.txPhase ≠ .idle := by decide
theorem test_witness_frame : receiving.fault = none ∧ receiving.txPhase = .idle ∧
    ∀ b ∈ ([0x41, 0x00, 0xFF, 0x7C] : List Byte), Ordinary b := by
  decide
theorem test_witness_payload : after (exec .rxEnd receiving) = some { small with
      rxBuf := receiving.rxBuf
      trace := receiving.trace ++ [.frameOut [0x41, 0x42], .msgOut (.unknown [0x41, 0x42])] } := by decide +kernel
theorem test_witness_snapshot :
    after (exec .rxEnd { State.reset with
        rxState := .acc
        rxIdx := 5
        rxBuf := [(0, 0x42), (1, 0x52), (2, 0x41), (3, 0x49), (4, 0x4E)] }) = some { State.reset with
        rxBuf := [(0, 0x42), (1, 0x52), (2, 0x41), (3, 0x49), (4, 0x4E)]
        trace := [] ++ [.frameOut tagBrain, .msgOut (.brain 0 0 0 0)] } := by decide +kernel

/-! ### Witnesses: the transceiver -/

theorem test_witness_transmit : small.fault = none ∧ small.txPhase = .idle ∧
    (List.replicate 16 (0x78 : Byte)).length = small.cfg.txCap ∧
    (List.replicate 17 (0x78 : Byte)).length = small.cfg.txCap + 1 ∧ writing.fault = none ∧
    writing.txPhase ≠ .idle := by decide
/-- 1234.56 at the limit, 12345.67 one byte above. -/
theorem test_witness_send_weight :
    ([0x3C] ++ tagWeight ++ [0x7C] ++ fmt 2 (coreValue ⟨none, [1, 2, 3, 4], some [5, 6]⟩) ++ [0x3E]).length = small.cfg.txCap ∧
    ([0x3C] ++ tagWeight ++ [0x7C] ++ fmt 2 (coreValue ⟨none, [1, 2, 3, 4, 5], some [6, 7]⟩) ++ [0x3E]).length = small.cfg.txCap + 1 ∧
    small.txPhase = .idle ∧ writing.txPhase ≠ .idle := by decide +kernel
theorem test_witness_send_status :
    (∀ b ∈ (List.replicate 7 0x32 : List Byte), b ≠ 0x3C ∧ b ≠ 0x3E ∧ b ≠ 0x7C) ∧
    ([0x3C] ++ tagStatus ++ [0x7C] ++ List.replicate 7 0x32 ++ [0x3E] : List Byte).length = small.cfg.txCap ∧
    ([0x3C] ++ tagStatus ++ [0x7C] ++ List.replicate 8 0x32 ++ [0x3E] : List Byte).length = small.cfg.txCap + 1 ∧
    (∃ b ∈ ([0x61, 0x7C] : List Byte), b = 0x3C ∨ b = 0x3E ∨ b = 0x7C) ∧ small.txPhase = .idle ∧
    writing.txPhase ≠ .idle := by decide
theorem test_witness_write_ok : writing.fault = none ∧ writing.txPhase = .write ∧ writing.txPos + 1 < writing.txLen ∧
    writing.txPos + 1 < writing.cfg.txCap ∧ memRead writing.txBuf (writing.txPos + 1) = some 0x41 ∧
    lastByte.txPhase = .write ∧ lastByte.txLen = lastByte.txPos + 1 ∧ flushing.txPhase ≠ .write ∧
    small.txPhase ≠ .write := by decide
/-- What is read is the byte written, and the free value where none was: in the same step, which completes. -/
theorem test_unwritten_byte : exec .rxEnd { small with rxState := .acc, rxIdx := 2, rxBuf := [(0, 0x41)] } =
    .next { small with
      rxBuf := [(0, 0x41)]
      trace := [] ++ [.frameOut [0x41, Config.rxUnwritten 1],
        .msgOut (decodeMsg small.cfg [0x41, Config.rxUnwritten 1])] } ∧
    exec .txWriteOk { writing with txBuf := [] } =
      .next { writing with
        txBuf := []
        txPos := 1
        trace := [.txReq (Config.txUnwritten 1)]
        handed := [⟨0x3C, .sent⟩, ⟨Config.txUnwritten 1, .asked⟩] } := ⟨rfl, rfl⟩
/-- The first and the last byte still owed may be the one that fails. -/
theorem test_witness_owed : writing.fault = none ∧ writing.txPhase = .write ∧ 0 < writing.txLen - writing.txPos ∧
    2 + 1 = writing.txLen - writing.txPos := by decide
theorem test_witness_answers : flushing.fault = none ∧ flushing.txPhase = .flush ∧ writing.txPhase ≠ .flush := by decide
theorem test_witness_sequences : small.fault = none ∧ small.txPhase = .idle ∧ small.handed = [] ∧
    (List.replicate 16 (0x78 : Byte)).length ≤ small.cfg.txCap ∧ ([0x3C, 0x41, 0x3E] : List Byte)[2]? = some 0x3E ∧
    ([0x3C, 0x41, 0x3E] : List Byte)[0]? = some 0x3C := by decide
/-- A RESET in mid-transmission: every byte handed over is a fresh draw. -/
theorem test_witness_cut : (after (exec .reset lastByte)).isSome = true ∧
    drawAll 5 lastByte.handed = [⟨0x3C, .draw 5⟩, ⟨0x41, .draw 6⟩, ⟨0x3E, .draw 7⟩] := by decide
theorem test_witness_direction : (after (exec .rxStart small)).isSome = true ∧ ¬ IsTransceiver .rxStart ∧
    Instr.rxStart ≠ .reset ∧
    (after (exec .txFlushDone flushing)).isSome = true ∧ flushing.dir = .drive ∧
    (after (exec (.cmdTransmit []) small)).isSome = true ∧
    small.dir = .listen ∧ ¬ IsReceive .txWriteOk ∧ (after (exec .txWriteOk writing)).isSome = true := by
  exact ⟨by decide, id, by decide, by decide, by decide, by decide, by decide, id, by decide⟩

/-! ### Witnesses: the codec and the whole machine -/

theorem test_witness_encode : small.fault = none ∧ writing.fault = none ∧
    ([0x3C] ++ tagBrain ++ [0x7C] ++ fmt 1 0 ++ [0x7C] ++ fmt 1 0 ++ [0x7C] ++ fmt 2 0 ++ [0x7C] ++ fmt 2 0 ++ [0x3E]).length = 25 := by
  decide +kernel
theorem test_witness_round_trip : Config.initial.legal = true ∧
    encWeight Config.initial 0 = (.ok, [0x3C, 0x57, 0x45, 0x49, 0x47, 0x48, 0x54, 0x7C, 0x30, 0x2E, 0x30, 0x30, 0x3E]) ∧
    (encStatus Config.initial [0x6F, 0x6B]).1 = .ok ∧
    (encBrain Config.initial 100 (175 / 2) (617 / 50) (3 / 2)).1 = .ok := by
  decide +kernel
/-- A receive buffer with exactly room for the payload `STATUS|ok`. -/
def exact : State := { small with cfg := { small.cfg with rxCap := 10 } }

theorem test_witness_received : exact.fault = none ∧ exact.txPhase = .idle ∧
    encStatus small.cfg [0x6F, 0x6B] = (.ok, [0x3C, 0x53, 0x54, 0x41, 0x54, 0x55, 0x53, 0x7C, 0x6F, 0x6B, 0x3E]) ∧
    ([0x3C, 0x53, 0x54, 0x41, 0x54, 0x55, 0x53, 0x7C, 0x6F, 0x6B, 0x3E] : List Byte).length = exact.cfg.rxCap + 1 := by
  decide
/-- A missing field, an empty one, `core` text, and text that is none: `12x` has the longest `core` prefix `12`. -/
theorem test_witness_numeric : [tagWeight].length ≤ 1 ∧ [tagWeight, []][1]? = some [] ∧ num1234.wellFormed = true ∧
    parseCore [0x31, 0x32, 0x78] = none ∧ Config.initial.numLenient = .longestPrefix ∧
    parseCore ([0x31, 0x32, 0x78].take 2) = some ⟨none, [1, 2], none⟩ ∧
    (∀ n ≤ 1, parseCore ([0x78].take n) = none) := by decide
theorem test_witness_rendered : 1 ≤ Config.initial.brainTimeDecimals ∧ 1 ≤ Config.weightDecimals := by decide
theorem test_witness_queries : writing.fault = none ∧ ¬ IsReceive (.encodeStatus []) ∧ ¬ IsTransceiver (.encodeStatus []) ∧
    Instr.encodeStatus [] ≠ .reset := by
  exact ⟨rfl, id, id, by decide⟩
theorem test_witness_reachable : writing.fault = none ∧ writing.refused = none ∧
    (after (step { writing with input := [0x60] })).isSome = true := by
  decide
theorem test_witness_step_invariant : Inv { writing with input := [0x60] } ∧
    (after (step { writing with input := [0x60] })).isSome = true :=
  have h := test_inv_writing
  ⟨⟨h.legal, h.rx, h.dir, h.tx, h.canonical, h.bounds, h.frame, h.sent⟩, by decide⟩

end Sys2Proof.Machine.Tests
end

section
/-! The configuration parameters are read-only (10_state.md R34): each event keeps `cfg`, by the inversion lemma of its
meaning. -/

namespace Sys2Proof.Machine

@[simp] theorem sendEncoded_cfg (s : State) (r : ResultCode × List Byte) : (sendEncoded s r).cfg = s.cfg := by
  obtain ⟨-, h⟩ | ⟨-, h⟩ := sendEncoded_cases s r
  · rw [h, start_cfg]
  · rw [h, emit_cfg]

theorem answerEncode_keeps_cfg {s t : State} {r : ResultCode × List Byte} (h : answerEncode s r = .next t) :
    t.cfg = s.cfg := by
  obtain ⟨-, rfl⟩ := answerEncode_next h
  exact emit_cfg s _

theorem answerDecode_keeps_cfg {s t : State} {m : Message} (h : answerDecode s m = .next t) : t.cfg = s.cfg := by
  obtain ⟨-, rfl⟩ := answerDecode_next h
  exact emit_cfg s _

/-- No instruction writes the parameters, whether it completes or records a fault. -/
theorem exec_keeps_cfg {i : Instr} {s t : State} (h : exec i s = .next t) : t.cfg = s.cfg := by
  cases i with
  | reset =>
    obtain ⟨-, rfl⟩ := execReset_next h
    simp
  | rxStart => obtain ⟨-, ⟨-, rfl⟩ | ⟨-, rfl⟩⟩ := execRxStart_next h <;> rfl
  | rxEnd => obtain ⟨-, ⟨-, -, rfl⟩ | ⟨-, -, p, -, rfl⟩ | ⟨-, rfl⟩⟩ := execRxEnd_next h <;> rfl
  | rxData d => obtain ⟨-, ⟨-, -, -, rfl⟩ | ⟨-, -, rfl⟩ | ⟨-, rfl⟩⟩ := execRxData_next h <;> rfl
  | cmdTransmit bs => obtain ⟨-, ⟨-, -, rfl⟩ | ⟨-, -, rfl⟩ | ⟨-, rfl⟩⟩ := execCmdTransmit_next h <;> simp
  | cmdSendWeight v => obtain ⟨-, ⟨-, rfl⟩ | ⟨-, rfl⟩⟩ := execCmdSendWeight_next h <;> simp
  | cmdSendStatus x => obtain ⟨-, ⟨-, rfl⟩ | ⟨-, rfl⟩⟩ := execCmdSendStatus_next h <;> simp
  | txWriteOk => obtain ⟨-, ⟨-, -, b, -, rfl⟩ | ⟨-, -, rfl⟩ | ⟨-, rfl⟩⟩ := execTxWriteOk_next h <;> rfl
  | txWriteErr => obtain ⟨-, ⟨-, rfl⟩ | ⟨-, rfl⟩⟩ := execTxWriteErr_next h <;> rfl
  | txFlushDone => obtain ⟨-, ⟨-, rfl⟩ | ⟨-, rfl⟩⟩ := execTxFlushDone_next h <;> rfl
  | encodeWeight v => exact answerEncode_keeps_cfg h
  | encodeStatus x => exact answerEncode_keeps_cfg h
  | encodeBrain x p v c => exact answerEncode_keeps_cfg h
  | cmdDecode p => exact answerDecode_keeps_cfg h
  | decodeWeight F => exact answerDecode_keeps_cfg h
  | decodeStatus F => exact answerDecode_keeps_cfg h
  | decodeBrain F => exact answerDecode_keeps_cfg h
  | decodeUnknown p => exact answerDecode_keeps_cfg h

/-- A step writes no parameter either: it performs an event, records a refusal, or finds no event. -/
theorem step_keeps_cfg {s t : State} (h : step s = .next t) : t.cfg = s.cfg := by
  obtain ⟨-, rfl⟩ | ⟨r, -, rfl⟩ | ⟨i, rest, -, hexec⟩ := step_next h
  · rfl
  · exact markRefused_cfg s r
  · rw [exec_keeps_cfg hexec, consume_cfg]

/-- Settles O53: every instruction keeps the parameters, and a step does no more to them than its instruction. -/
theorem noEventWritesTheParameters : Obligations.NoEventWritesTheParameters :=
  ⟨fun _ _ _ h => exec_keeps_cfg h, fun _ _ h => step_keeps_cfg h⟩

end Sys2Proof.Machine
end

section
/-! The encode queries (40_codec_encode.md section 2): what an enabled one answers, and the frame it answers with. -/

namespace Sys2Proof.Machine

/-- An enabled encode query completes, and its answer is its only effect. -/
theorem answerEncode_of_enabled {s : State} {r : ResultCode × List Byte} (h : s.fault = none) :
    answerEncode s r = .next (emit s (.encOut r.1 r.2)) :=
  whenEnabled_none h

/-- The answer of an encode query that has come to the length check (R103). -/
theorem encOut_sized (c : Config) (f : List Byte) :
    OutEvent.encOut (sized c f).1 (sized c f).2 =
      if f.length > c.txCap then .encOut .errOversize [] else .encOut .ok f := by
  obtain ⟨hfit, heq⟩ | ⟨hover, heq⟩ := sized_cases c f
  · rw [heq, if_neg (by omega)]
  · rw [heq, if_pos hover]

/-- An enabled query whose encoding comes to the length check answers the frame, or `ERR_OVERSIZE` with no bytes. -/
theorem answerEncode_sized {s : State} (h : s.fault = none) (f : List Byte) :
    answerEncode s (sized s.cfg f) = .next { s with
      trace := s.trace ++ [if f.length > s.cfg.txCap then .encOut .errOversize [] else .encOut .ok f] } := by
  rw [answerEncode_of_enabled h, encOut_sized]
  rfl

/-- A frame of two fields, byte by byte. -/
theorem frame_pair (x y : List Byte) : frame [x, y] = [0x3C] ++ x ++ [0x7C] ++ y ++ [0x3E] := by
  simp [frame, joinFields, startMarker, separator, endMarker]

/-- Settles O38: the frame of the query is the tag and the number with two decimals, and it passes the length check alone. -/
theorem encodeWeightAnswers : Obligations.EncodeWeightAnswers := by
  intro s v f henabled hf
  have hframe : f = frame [tagWeight, fmt Config.weightDecimals (coreValue v)] := by
    rw [frame_pair]
    exact hf
  rw [hframe]
  exact answerEncode_sized henabled _

end Sys2Proof.Machine
end

section
/-! The decode query (41_codec_decode.md section 2): the message that the tag dispatch gives, and the answer with it. -/

namespace Sys2Proof.Machine

/-- An enabled decode query completes, and its answer is its only effect. -/
theorem answerDecode_of_enabled {s : State} {m : Message} (h : s.fault = none) :
    answerDecode s m = .next (emit s (.decOut m)) :=
  whenEnabled_none h

/-- The message of a payload by its first field (R142), with the fields that each row reads (R143 to R146). -/
theorem decodeMsg_by_firstField (c : Config) (p : List Byte) :
    decodeMsg c p =
      if firstField p = tagWeight then .weight (numField c (fieldsOf p) 1)
      else if firstField p = tagStatus then .status (textField (fieldsOf p) 1)
      else if firstField p = tagBrain then .brain (numField c (fieldsOf p) 1) (numField c (fieldsOf p) 2)
        (numField c (fieldsOf p) 3) (numField c (fieldsOf p) 4)
      else .unknown p := by
  rw [decodeMsg, tagOf_fieldsOf]
  split_ifs <;> rfl

/-- Settles O41: the query answers the message of the tag dispatch, which reads the first field. -/
theorem cmdDecodeAnswers : Obligations.CmdDecodeAnswers := by
  intro s p henabled
  rw [← decodeMsg_by_firstField]
  exact answerDecode_of_enabled henabled

end Sys2Proof.Machine
end

section
/-! The receiver (42_receiver.md section 2): the precondition of an enabled `RX_BYTE` step, and the start of a frame. -/

namespace Sys2Proof.Machine

/-- Outside a transmission an enabled receive step does its body (R180). -/
theorem whenListening_of_idle {s : State} {d : Byte} {o : Host.Outcome State Fault Refusal}
    (henabled : s.fault = none) (hidle : s.txPhase = .idle) : whenListening s d o = o := by
  rw [whenListening, whenEnabled_none henabled, whenPhase_of_eq hidle]

/-- During a transmission an enabled receive step records its byte in the fault, whatever its body (R180, R254). -/
theorem whenListening_of_not_idle {s : State} {d : Byte} {o : Host.Outcome State Fault Refusal}
    (henabled : s.fault = none) (hbusy : s.txPhase ≠ .idle) :
    whenListening s d o = .next (faulted s .rxDuringTx d.toNat) := by
  rw [whenListening, whenEnabled_none henabled, whenPhase_of_ne hbusy]

/-- Settles O19: the two cases of the precondition, of which the first opens the frame. -/
theorem rxStartOpensAFrame : Obligations.RxStartOpensAFrame := by
  intro s henabled
  constructor
  · intro hidle
    exact whenListening_of_idle henabled hidle
  · intro hbusy
    exact whenListening_of_not_idle henabled hbusy

end Sys2Proof.Machine
end

section
/-! The transceiver's commands (43_transceiver.md section 2): the reentry check, `START`, and the two ways of a frame that
comes to the length check. -/

namespace Sys2Proof.Machine

/-- Outside a transmission an enabled command does its body (R220). -/
theorem whenNotSending_of_idle {s : State} {n : Nat} {o : Host.Outcome State Fault Refusal}
    (henabled : s.fault = none) (hidle : s.txPhase = .idle) : whenNotSending s n o = o := by
  rw [whenNotSending, whenEnabled_none henabled, whenPhase_of_eq hidle]

/-- During a transmission an enabled command records the reentry fault, whatever its body (R220, R254). -/
theorem whenNotSending_of_not_idle {s : State} {n : Nat} {o : Host.Outcome State Fault Refusal}
    (henabled : s.fault = none) (hbusy : s.txPhase ≠ .idle) :
    whenNotSending s n o = .next (faulted s .txReentry n) := by
  rw [whenNotSending, whenEnabled_none henabled, whenPhase_of_ne hbusy]

/-- `START` loads the bytes at the front of the transmit buffer and leaves the rest of it (R211). -/
theorem memRead_start_txBuf (s : State) (bs : List Byte) (i : Nat) :
    memRead (start s bs).txBuf i = if i < bs.length then bs[i]? else memRead s.txBuf i := by
  rw [start_txBuf, memRead_memWriteList]
  simp

/-- `START` makes the change that R211 names, whether or not there is a first byte to request. -/
theorem started_start (s : State) (bs : List Byte) : Started s (start s bs) bs := by
  refine ⟨memRead_start_txBuf s bs, ?_⟩
  cases bs with
  | nil => simp [start, loadTx, setDir, requestFlush]
  | cons b bs => simp [start, loadTx, setDir, enterWrite, requestByte]

/-- A frame that fits is transmitted (R103, R212). -/
theorem sendEncoded_sized_of_le {s : State} {f : List Byte} (hfit : f.length ≤ s.cfg.txCap) :
    sendEncoded s (sized s.cfg f) = start s f := by
  obtain ⟨-, heq⟩ | ⟨hover, -⟩ := sized_cases s.cfg f
  · rw [heq, sendEncoded_ok]
  · omega

/-- A frame that does not fit is reported, with no other effect (R103, R212). -/
theorem sendEncoded_sized_of_lt {s : State} {f : List Byte} (hover : s.cfg.txCap < f.length) :
    sendEncoded s (sized s.cfg f) = emit s (.result .errOversize) := by
  obtain ⟨hfit, -⟩ | ⟨-, heq⟩ := sized_cases s.cfg f
  · omega
  · rw [heq, sendEncoded_error (by decide)]

/-- CMD_SEND_WEIGHT behind its reentry check: the frame of the tag and the rendered value comes to the length check. -/
theorem exec_cmdSendWeight (v : Decimal) (s : State) :
    exec (.cmdSendWeight v) s = whenNotSending s 0 (.next (sendEncoded s
      (sized s.cfg ([0x3C] ++ tagWeight ++ [0x7C] ++ fmt 2 (coreValue v) ++ [0x3E])))) := by
  rw [← frame_pair]
  rfl

/-- Settles O26: behind the reentry check the frame is transmitted where it fits, and reported where it does not. -/
theorem sendWeightTransmitsTheFrame : Obligations.SendWeightTransmitsTheFrame := by
  intro s v f henabled hf
  rw [exec_cmdSendWeight, ← hf]
  refine ⟨fun hidle hfit => ?_, fun hidle hover => ?_, fun hbusy => ?_⟩
  · rw [whenNotSending_of_idle henabled hidle, sendEncoded_sized_of_le hfit]
    exact ⟨_, rfl, started_start s f⟩
  · rw [whenNotSending_of_idle henabled hidle, sendEncoded_sized_of_lt hover]
    rfl
  · exact whenNotSending_of_not_idle henabled hbusy

end Sys2Proof.Machine
end

section
/-! The transport's responses (43_transceiver.md section 3): the check of the phase, and the step after a byte taken. -/

namespace Sys2Proof.Machine

/-- In the phase it answers, an enabled response does its body. -/
theorem whenAwaiting_of_eq {s : State} {p : TxPhase} {c : FaultCode} {o : Host.Outcome State Fault Refusal}
    (henabled : s.fault = none) (hphase : s.txPhase = p) : whenAwaiting s p c o = o := by
  rw [whenAwaiting, whenEnabled_none henabled, whenPhase_of_eq hphase]

/-- In any other phase an enabled response records that phase in the fault, whatever its body (R254). -/
theorem whenAwaiting_of_ne {s : State} {p : TxPhase} {c : FaultCode} {o : Host.Outcome State Fault Refusal}
    (henabled : s.fault = none) (hphase : s.txPhase ≠ p) :
    whenAwaiting s p c o = .next (faulted s c (txPhaseCode s.txPhase)) := by
  rw [whenAwaiting, whenEnabled_none henabled, whenPhase_of_ne hphase]

/-- A read within the transmit buffer answers the byte it holds. -/
theorem readTx_of_lt {s : State} {i : Nat} (h : i < s.cfg.txCap) : readTx s i = .ok (memByte .tx s.txBuf i) :=
  readSpace_ok.2 ⟨h, rfl⟩

/-- While a byte is left, the transport's acceptance of one requests the next (R214). -/
theorem execTxWriteOk_of_lt {s : State} (henabled : s.fault = none) (hwrite : s.txPhase = .write)
    (hmore : s.txPos + 1 < s.txLen) (hcap : s.txPos + 1 < s.cfg.txCap) :
    execTxWriteOk s = .next (requestByte (advance s) (memByte .tx s.txBuf (s.txPos + 1))) := by
  rw [execTxWriteOk, whenAwaiting_of_eq henabled hwrite, if_pos hmore, readTx_of_lt hcap]

/-- After the last byte, its acceptance requests the flush (R214). -/
theorem execTxWriteOk_of_le {s : State} (henabled : s.fault = none) (hwrite : s.txPhase = .write)
    (hlast : s.txLen ≤ s.txPos + 1) : execTxWriteOk s = .next (requestFlush (advance s)) := by
  rw [execTxWriteOk, whenAwaiting_of_eq henabled hwrite, if_neg (by omega)]

/-- Settles O28: a next byte is requested, or the flush after the last, or the phase is recorded. -/
theorem writeOkRequestsTheNextByte : Obligations.WriteOkRequestsTheNextByte := by
  intro s henabled
  refine ⟨fun hwrite hmore hcap => ?_, fun hwrite hlast => ?_, fun hphase => ?_⟩
  · exact ⟨_, execTxWriteOk_of_lt henabled hwrite hmore hcap⟩
  · exact ⟨_, execTxWriteOk_of_le henabled hwrite hlast⟩
  · exact whenAwaiting_of_ne henabled hphase

end Sys2Proof.Machine
end

section
/-! The number grammar `core` (30_encoding.md Part A): a text read as a sign, digits and a fraction is the text of that decimal,
and the text of a well-formed decimal is read as it. -/

namespace Sys2Proof

@[simp] theorem noDigitFirst_nil : NoDigitFirst [] := by simp [NoDigitFirst]

@[simp] theorem noDigitFirst_dot (bs : List Byte) : NoDigitFirst (dotByte :: bs) := by
  simpa [NoDigitFirst] using digitOf_dot

@[simp] theorem digitRun_map (ds : List (Fin 10)) : digitRun (ds.map digitByte) = ds := by
  simpa using digitRun_digits ds noDigitFirst_nil

@[simp] theorem afterDigits_map (ds : List (Fin 10)) : afterDigits (ds.map digitByte) = [] := by
  simpa using afterDigits_digits ds noDigitFirst_nil

/-- A text that digits alone make up is their text. -/
theorem map_digitRun_of_afterDigits {bs : List Byte} (h : afterDigits bs = []) : (digitRun bs).map digitByte = bs := by
  simpa [h] using digitRun_append bs

/-- Well-formed without a fraction: at least one digit. -/
@[simp] theorem Decimal.wellFormed_none (s : Option Sign) (ip : List (Fin 10)) :
    Decimal.wellFormed ⟨s, ip, none⟩ = true ↔ ip ≠ [] := by simp [Decimal.wellFormed]

/-- Well-formed with a fraction: at least one digit on one side of the point. -/
@[simp] theorem Decimal.wellFormed_some (s : Option Sign) (ip ds : List (Fin 10)) :
    Decimal.wellFormed ⟨s, ip, some ds⟩ = true ↔ ip ≠ [] ∨ ds ≠ [] := by
  cases ds <;> simp [Decimal.wellFormed]

/-- What the reader of an unsigned text accepts is well-formed and is the text read. -/
theorem parseUnsigned_sound {s : Option Sign} {bs : List Byte} {d : Decimal} (h : parseUnsigned s bs = some d) :
    d.sign = s ∧ d.wellFormed = true ∧ bs = d.intPart.map digitByte ++ fracText d.frac := by
  unfold parseUnsigned at h
  split at h
  · rename_i hafter
    split at h
    · cases h
    · rename_i hdigits
      cases h
      exact ⟨rfl, (Decimal.wellFormed_none _ _).2 hdigits, by simp [fracText, map_digitRun_of_afterDigits hafter]⟩
  · rename_i b rest hafter
    split at h
    · rename_i hdot
      obtain ⟨rfl, hrest, hdigits⟩ := hdot
      cases h
      refine ⟨rfl, (Decimal.wellFormed_some _ _ _).2 hdigits, ?_⟩
      rw [fracText, map_digitRun_of_afterDigits hrest, ← hafter, digitRun_append]
    · cases h

/-- Every well-formed unsigned text is accepted, field by field. -/
theorem parseUnsigned_complete (d : Decimal) (h : d.wellFormed = true) :
    parseUnsigned d.sign (d.intPart.map digitByte ++ fracText d.frac) = some d := by
  obtain ⟨s, ip, _ | ds⟩ := d
  · have hip := (Decimal.wellFormed_none _ _).1 h
    simp [parseUnsigned, fracText, hip]
  · have hdigits := (Decimal.wellFormed_some _ _ _).1 h
    have hrun := digitRun_digits ip (noDigitFirst_dot (ds.map digitByte))
    have hafter := afterDigits_digits ip (noDigitFirst_dot (ds.map digitByte))
    simp only [parseUnsigned, fracText, hrun, hafter, afterDigits_map, digitRun_map, true_and]
    exact if_pos hdigits

/-- Reading the sign loses nothing of the text. -/
theorem signText_readSign (bs : List Byte) : signText (readSign bs).1 ++ (readSign bs).2 = bs := by
  cases bs with
  | nil => rfl
  | cons b bs =>
    rw [readSign]
    split_ifs with hplus hminus
    · simp [signText, hplus]
    · simp [signText, hminus]
    · rfl

theorem digitByte_ne_sign (d : Fin 10) : digitByte d ≠ plusByte ∧ digitByte d ≠ minusByte := by revert d; decide

/-- A number's unsigned text does not begin with a sign. -/
theorem readSign_unsigned (ip : List (Fin 10)) (frac : Option (List (Fin 10))) :
    readSign (ip.map digitByte ++ fracText frac) = (none, ip.map digitByte ++ fracText frac) := by
  cases ip with
  | cons d ip =>
    obtain ⟨hplus, hminus⟩ := digitByte_ne_sign d
    rw [List.map_cons, List.cons_append, readSign, if_neg hplus, if_neg hminus]
  | nil => cases frac <;> simp [readSign, fracText]

/-- The sign of a decimal's text is read as its sign. -/
theorem readSign_text (d : Decimal) :
    readSign d.text = (d.sign, d.intPart.map digitByte ++ fracText d.frac) := by
  obtain ⟨_ | _ | _, ip, frac⟩ := d
  · simpa [Decimal.text, signText] using readSign_unsigned ip frac
  · simp [Decimal.text, signText, readSign]
  · simp [Decimal.text, signText, readSign]

/-- The grammar `core`, both ways: what is accepted, and as what. -/
theorem parseCore_eq_some {bs : List Byte} {d : Decimal} : parseCore bs = some d ↔ d.wellFormed = true ∧ bs = d.text := by
  constructor
  · intro h
    obtain ⟨hsign, hwf, hrest⟩ := parseUnsigned_sound h
    refine ⟨hwf, ?_⟩
    rw [← signText_readSign bs, hrest, ← hsign, Decimal.text, List.append_assoc]
  · rintro ⟨hwf, rfl⟩
    rw [parseCore, readSign_text]
    exact parseUnsigned_complete d hwf

/-- Settles O9: the two directions of the grammar. -/
theorem coreParserAcceptsExactlyCore : Obligations.CoreParserAcceptsExactlyCore :=
  fun _ _ => parseCore_eq_some

end Sys2Proof
end

section
/-! The operand forms (30_encoding.md R81): which bytes each reader takes, and that it refuses every proper beginning of them. -/

namespace Sys2Proof

theorem lenOperandOk_iff {t : List Byte} : lenOperandOk t = true ↔ t.length ≤ 65535 := by simp [lenOperandOk]

theorem numOperandOk_iff {d : Decimal} : numOperandOk d = true ↔ d.wellFormed = true ∧ d.text.length ≤ 255 := by
  simp [numOperandOk, Decimal.text_length]

/-- A length that fits two bytes is what its two bytes say. -/
theorem len16_value {n : Nat} (h : n ≤ 65535) :
    (BitVec.ofNat 8 (n % 256)).toNat + 256 * (BitVec.ofNat 8 (n / 256)).toNat = n := by
  simp only [BitVec.toNat_ofNat]
  omega

/-- `LEN16` takes exactly the bytes of an operand that its length field can announce. -/
theorem readLen16_ok {bs t rest : List Byte} :
    readLen16 bs = .ok (t, rest) ↔ lenOperandOk t = true ∧ bs = len16Bytes t ++ rest := by
  rw [lenOperandOk_iff]
  constructor
  · intro h
    unfold readLen16 at h
    split at h
    · rename_i lo hi tail
      obtain ⟨hlen, rfl⟩ := takeBytes_ok.1 h
      have hlo := lo.isLt
      have hhi := hi.isLt
      refine ⟨by omega, ?_⟩
      have hlow : lo = BitVec.ofNat 8 (t.length % 256) := by bv_omega
      have hhigh : hi = BitVec.ofNat 8 (t.length / 256) := by bv_omega
      rw [len16Bytes, ← hlow, ← hhigh]
      rfl
    · cases h
  · rintro ⟨hlen, rfl⟩
    exact takeBytes_ok.2 ⟨(len16_value hlen).symm, rfl⟩

/-- `NUM` takes exactly the bytes of a number that its length byte can announce. -/
theorem readNum_ok {bs rest : List Byte} {d : Decimal} :
    readNum bs = .ok (d, rest) ↔ numOperandOk d = true ∧ bs = numBytes d ++ rest := by
  rw [numOperandOk_iff]
  constructor
  · intro h
    unfold readNum at h
    split at h
    · cases h
    · rename_i n tail
      split at h
      · cases h
      · rename_i text rest' htake
        split at h
        · cases h
        · rename_i e hparse
          cases h
          obtain ⟨hlen, rfl⟩ := takeBytes_ok.1 htake
          obtain ⟨hwf, rfl⟩ := parseCore_eq_some.1 hparse
          have hn := n.isLt
          refine ⟨⟨hwf, by omega⟩, ?_⟩
          rw [numBytes, hlen, BitVec.ofNat_toNat, BitVec.setWidth_eq]
          rfl
  · rintro ⟨⟨hwf, hlen⟩, rfl⟩
    have htake : takeBytes (BitVec.ofNat 8 d.text.length).toNat (d.text ++ rest) = .ok (d.text, rest) :=
      takeBytes_ok.2 ⟨by rw [BitVec.toNat_ofNat]; omega, rfl⟩
    simp only [readNum, numBytes, List.cons_append, htake, parseCore_eq_some.2 ⟨hwf, rfl⟩]

/-- A `NUM` operand that is no `core` text is malformed, whatever follows it. -/
theorem readNum_badNum {text : List Byte} (rest : List Byte) (hlen : text.length ≤ 255) (h : parseCore text = none) :
    readNum (BitVec.ofNat 8 text.length :: (text ++ rest)) = .error .badNum := by
  have htake : takeBytes (BitVec.ofNat 8 text.length).toNat (text ++ rest) = .ok (text, rest) :=
    takeBytes_ok.2 ⟨by rw [BitVec.toNat_ofNat]; omega, rfl⟩
  simp only [readNum, htake, h]

/-- A `LEN16` operand cut short is refused. -/
theorem readLen16_truncated {t : List Byte} {m : Nat} (ht : lenOperandOk t = true) (hm : m < (len16Bytes t).length) :
    readLen16 ((len16Bytes t).take m) = .error .truncatedEvent := by
  rw [lenOperandOk_iff] at ht
  match m with
  | 0 => rfl
  | 1 => rfl
  | m + 2 =>
    simp only [len16Bytes, List.length_cons] at hm
    simp only [len16Bytes, List.take_succ_cons, readLen16, len16_value ht]
    exact takeBytes_error.2 ⟨by rw [List.length_take]; omega, rfl⟩

/-- A `NUM` operand cut short is refused. -/
theorem readNum_truncated {d : Decimal} {m : Nat} (hd : numOperandOk d = true) (hm : m < (numBytes d).length) :
    readNum ((numBytes d).take m) = .error .truncatedEvent := by
  obtain ⟨-, hlen⟩ := numOperandOk_iff.1 hd
  cases m with
  | zero => rfl
  | succ m =>
    simp only [numBytes, List.length_cons] at hm
    have htake : takeBytes (BitVec.ofNat 8 d.text.length).toNat (d.text.take m) = .error .truncatedEvent :=
      takeBytes_error.2 ⟨by rw [BitVec.toNat_ofNat, List.length_take]; omega, rfl⟩
    simp only [numBytes, List.take_succ_cons, readNum, htake]

/-- A stream cut somewhere after the start of a `NUM`: in the operand, which is refused, or behind it. -/
theorem readNum_take {d : Decimal} (hd : numOperandOk d = true) (rest : List Byte) (m : Nat) :
    (m < (numBytes d).length ∧ readNum ((numBytes d ++ rest).take m) = .error .truncatedEvent) ∨
      ∃ k, m = (numBytes d).length + k ∧ readNum ((numBytes d ++ rest).take m) = .ok (d, rest.take k) := by
  by_cases hm : m < (numBytes d).length
  · exact .inl ⟨hm, by rw [List.take_append_of_le_length hm.le, readNum_truncated hd hm]⟩
  · obtain ⟨k, rfl⟩ := Nat.exists_eq_add_of_le (not_lt.1 hm)
    refine .inr ⟨k, rfl, ?_⟩
    rw [List.take_length_add_append]
    exact readNum_ok.2 ⟨hd, rfl⟩

/-- A byte run fails only for want of bytes. -/
theorem takeBytes_error_reason {n : Nat} {bs : List Byte} {r : RefuseReason} (h : takeBytes n bs = .error r) :
    r = .truncatedEvent :=
  (takeBytes_error.1 h).2

/-- `LEN16` fails only for want of bytes. -/
theorem readLen16_error_reason {bs : List Byte} {r : RefuseReason} (h : readLen16 bs = .error r) :
    r = .truncatedEvent := by
  unfold readLen16 at h
  split at h
  · exact takeBytes_error_reason h
  · cases h
    rfl

/-- `NUM` fails for want of bytes or because its text is no `core`. -/
theorem readNum_error_reason {bs : List Byte} {r : RefuseReason} (h : readNum bs = .error r) :
    r = .truncatedEvent ∨ r = .badNum := by
  unfold readNum at h
  split at h
  · cases h
    exact .inl rfl
  · split at h
    · rename_i htake
      cases h
      exact .inl (takeBytes_error_reason htake)
    · split at h <;> cases h
      exact .inr rfl

end Sys2Proof
end

section
/-! Event decoding (30_encoding.md Part B): the listed headers with their operand readers, what each reader takes and refuses, and
the round trips between an event and its bytes. -/

namespace Sys2Proof

/-- The table of R80: a listed header byte and the reader of its operands. -/
inductive Listed : Byte → (List Byte → Except RefuseReason (Instr × List Byte)) → Prop
  | reset : Listed 0x10 (plainEvent .reset)
  | rx : Listed 0x20 rxEvent
  | cmdTransmit : Listed 0x30 (lenEvent .cmdTransmit)
  | cmdSendWeight : Listed 0x40 (numEvent .cmdSendWeight)
  | cmdSendStatus : Listed 0x50 (lenEvent .cmdSendStatus)
  | txWriteOk : Listed 0x60 (plainEvent .txWriteOk)
  | txWriteErr : Listed 0x61 (plainEvent .txWriteErr)
  | txFlushDone : Listed 0x70 (plainEvent .txFlushDone)
  | encodeWeight : Listed 0x80 (numEvent .encodeWeight)
  | encodeStatus : Listed 0x81 (lenEvent .encodeStatus)
  | encodeBrain : Listed 0x82 brainEvent
  | cmdDecode : Listed 0x90 (lenEvent .cmdDecode)

/-- The highest modifier that a kind lists (R80). -/
def modifierLimit (k : Nat) : Nat := if k = 6 then 1 else if k = 8 then 2 else 0

theorem Listed.decodeEvent {h : Byte} {f : List Byte → Except RefuseReason (Instr × List Byte)} (hl : Listed h f)
    (bs : List Byte) : decodeEvent (h :: bs) = f bs := by
  cases hl <;> rfl

/-- Every header with a listed kind and a modifier within the kind's limit is listed. -/
theorem listed_of_header {h : Byte} (hk1 : 1 ≤ h.toNat / 16) (hk9 : h.toNat / 16 ≤ 9)
    (hm : h.toNat % 16 ≤ modifierLimit (h.toNat / 16)) : ∃ f, Listed h f := by
  have hmem : ∀ h : Byte, 1 ≤ h.toNat / 16 → h.toNat / 16 ≤ 9 → h.toNat % 16 ≤ modifierLimit (h.toNat / 16) →
      h ∈ [(0x10 : Byte), 0x20, 0x30, 0x40, 0x50, 0x60, 0x61, 0x70, 0x80, 0x81, 0x82, 0x90] := by decide
  have hcases := hmem h hk1 hk9 hm
  simp only [List.mem_cons, List.not_mem_nil, or_false] at hcases
  rcases hcases with rfl | rfl | rfl | rfl | rfl | rfl | rfl | rfl | rfl | rfl | rfl | rfl
  · exact ⟨_, .reset⟩
  · exact ⟨_, .rx⟩
  · exact ⟨_, .cmdTransmit⟩
  · exact ⟨_, .cmdSendWeight⟩
  · exact ⟨_, .cmdSendStatus⟩
  · exact ⟨_, .txWriteOk⟩
  · exact ⟨_, .txWriteErr⟩
  · exact ⟨_, .txFlushDone⟩
  · exact ⟨_, .encodeWeight⟩
  · exact ⟨_, .encodeStatus⟩
  · exact ⟨_, .encodeBrain⟩
  · exact ⟨_, .cmdDecode⟩

/-- A reserved kind is refused by name. -/
theorem decodeEvent_reservedKind {h : Byte} (rest : List Byte) (hk : h.toNat / 16 = 0 ∨ 10 ≤ h.toNat / 16) :
    decodeEvent (h :: rest) = .error .reservedKind := by
  rw [decodeEvent]
  obtain hk | hk := hk
  · rw [hk]
    rfl
  · obtain ⟨j, hj⟩ := Nat.exists_eq_add_of_le' hk
    rw [hj]
    rfl

/-- In the table a modifier above its kind's limit is reserved. -/
theorem decodeBody_reservedModifier {k m : Nat} (bs : List Byte) (hk1 : 1 ≤ k) (hk9 : k ≤ 9) (hm : modifierLimit k < m) :
    decodeBody k m bs = .error .reservedModifier := by
  have hm0 : m ≠ 0 := by omega
  by_cases h6 : k = 6
  · subst h6
    have hm1 : m ≠ 1 := Nat.ne_of_gt hm
    simp [decodeBody, hm0, hm1]
  by_cases h8 : k = 8
  · subst h8
    have hm2 : 2 < m := hm
    simp [decodeBody, hm0, show m ≠ 1 by omega, show m ≠ 2 by omega]
  interval_cases k <;> simp_all [decodeBody]

/-- A modifier above the limit of its kind is refused by name. -/
theorem decodeEvent_reservedModifier {h : Byte} (rest : List Byte) (hk1 : 1 ≤ h.toNat / 16) (hk9 : h.toNat / 16 ≤ 9)
    (hm : modifierLimit (h.toNat / 16) < h.toNat % 16) : decodeEvent (h :: rest) = .error .reservedModifier :=
  decodeBody_reservedModifier rest hk1 hk9 hm

/-! ### What each reader takes -/

theorem lenEvent_ok {mk : List Byte → Instr} {bs rest : List Byte} {i : Instr} :
    lenEvent mk bs = .ok (i, rest) ↔ ∃ t, lenOperandOk t = true ∧ i = mk t ∧ bs = len16Bytes t ++ rest := by
  constructor
  · intro h
    unfold lenEvent at h
    split at h
    · cases h
    · rename_i t rest' hread
      cases h
      obtain ⟨ht, hbs⟩ := readLen16_ok.1 hread
      exact ⟨t, ht, rfl, hbs⟩
  · rintro ⟨t, ht, rfl, rfl⟩
    simp only [lenEvent, readLen16_ok.2 ⟨ht, rfl⟩]

theorem numEvent_ok {mk : Decimal → Instr} {bs rest : List Byte} {i : Instr} :
    numEvent mk bs = .ok (i, rest) ↔ ∃ v, numOperandOk v = true ∧ i = mk v ∧ bs = numBytes v ++ rest := by
  constructor
  · intro h
    unfold numEvent at h
    split at h
    · cases h
    · rename_i v rest' hread
      cases h
      obtain ⟨hv, hbs⟩ := readNum_ok.1 hread
      exact ⟨v, hv, rfl, hbs⟩
  · rintro ⟨v, hv, rfl, rfl⟩
    simp only [numEvent, readNum_ok.2 ⟨hv, rfl⟩]

/-- `ENCODE_BRAIN` takes exactly the bytes of four numbers, in order. -/
theorem brainEvent_ok {bs rest : List Byte} {i : Instr} :
    brainEvent bs = .ok (i, rest) ↔ ∃ t p v c, (Instr.encodeBrain t p v c).wellFormed = true ∧ i = .encodeBrain t p v c ∧
      bs = numBytes t ++ (numBytes p ++ (numBytes v ++ (numBytes c ++ rest))) := by
  simp only [Instr.wellFormed, Bool.and_eq_true]
  constructor
  · intro h
    unfold brainEvent at h
    split at h
    · cases h
    · rename_i t r1 ht
      split at h
      · cases h
      · rename_i p r2 hp
        split at h
        · cases h
        · rename_i v r3 hv
          obtain ⟨c, hc, rfl, rfl⟩ := numEvent_ok.1 h
          obtain ⟨htok, rfl⟩ := readNum_ok.1 ht
          obtain ⟨hpok, rfl⟩ := readNum_ok.1 hp
          obtain ⟨hvok, rfl⟩ := readNum_ok.1 hv
          exact ⟨t, p, v, c, ⟨⟨⟨htok, hpok⟩, hvok⟩, hc⟩, rfl, rfl⟩
  · rintro ⟨t, p, v, c, ⟨⟨⟨ht, hp⟩, hv⟩, hc⟩, rfl, rfl⟩
    simp only [brainEvent, readNum_ok.2 ⟨ht, rfl⟩, readNum_ok.2 ⟨hp, rfl⟩, readNum_ok.2 ⟨hv, rfl⟩]
    exact numEvent_ok.2 ⟨c, hc, rfl, rfl⟩

/-- The bytes that a well-formed event begins with are a listed header, and its reader takes the operands. -/
theorem Listed.of_event {i : Instr} (hwf : i.wellFormed = true) (hev : i.isEvent = true) :
    ∃ h ops f, encode i = h :: ops ∧ Listed h f ∧ ∀ rest, f (ops ++ rest) = .ok (i, rest) := by
  cases i with
  | reset => exact ⟨_, _, _, rfl, .reset, fun _ => rfl⟩
  | rxStart => exact ⟨_, _, _, rfl, .rx, fun _ => rfl⟩
  | rxEnd => exact ⟨_, _, _, rfl, .rx, fun _ => rfl⟩
  | rxData d =>
    simp only [Instr.wellFormed, Bool.and_eq_true, decide_eq_true_eq] at hwf
    refine ⟨_, _, _, rfl, .rx, fun rest => ?_⟩
    rw [List.singleton_append, rxEvent, rxByte_of_ordinary hwf.1 hwf.2]
  | cmdTransmit bs => exact ⟨_, _, _, rfl, .cmdTransmit, fun _ => lenEvent_ok.2 ⟨bs, hwf, rfl, rfl⟩⟩
  | cmdSendWeight v => exact ⟨_, _, _, rfl, .cmdSendWeight, fun _ => numEvent_ok.2 ⟨v, hwf, rfl, rfl⟩⟩
  | cmdSendStatus t => exact ⟨_, _, _, rfl, .cmdSendStatus, fun _ => lenEvent_ok.2 ⟨t, hwf, rfl, rfl⟩⟩
  | txWriteOk => exact ⟨_, _, _, rfl, .txWriteOk, fun _ => rfl⟩
  | txWriteErr => exact ⟨_, _, _, rfl, .txWriteErr, fun _ => rfl⟩
  | txFlushDone => exact ⟨_, _, _, rfl, .txFlushDone, fun _ => rfl⟩
  | encodeWeight v => exact ⟨_, _, _, rfl, .encodeWeight, fun _ => numEvent_ok.2 ⟨v, hwf, rfl, rfl⟩⟩
  | encodeStatus t => exact ⟨_, _, _, rfl, .encodeStatus, fun _ => lenEvent_ok.2 ⟨t, hwf, rfl, rfl⟩⟩
  | encodeBrain t p v c =>
    refine ⟨_, _, _, rfl, .encodeBrain, fun rest => brainEvent_ok.2 ⟨t, p, v, c, hwf, rfl, ?_⟩⟩
    simp only [List.append_assoc]
  | cmdDecode p => exact ⟨_, _, _, rfl, .cmdDecode, fun _ => lenEvent_ok.2 ⟨p, hwf, rfl, rfl⟩⟩
  | decodeWeight F => cases hev
  | decodeStatus F => cases hev
  | decodeBrain F => cases hev
  | decodeUnknown p => cases hev

/-- Settles O1: the header selects the reader, and the reader takes exactly the operands. -/
theorem eventBytesDecodeBack : Obligations.EventBytesDecodeBack := by
  intro i rest hwf hev
  obtain ⟨h, ops, f, henc, hlisted, htake⟩ := Listed.of_event hwf hev
  rw [henc, List.cons_append, hlisted.decodeEvent, htake]

/-- Sub-decoding of a received byte answers a well-formed event of that byte (R82). -/
theorem rxByte_wellFormed (d : Byte) :
    (rxByte d).wellFormed = true ∧ (rxByte d).isEvent = true ∧ encode (rxByte d) = [0x20, d] := by
  unfold rxByte
  split_ifs with hstart hend
  · subst hstart
    exact ⟨rfl, rfl, rfl⟩
  · subst hend
    exact ⟨rfl, rfl, rfl⟩
  · exact ⟨Bool.and_eq_true_iff.2 ⟨decide_eq_true hstart, decide_eq_true hend⟩, rfl, rfl⟩

/-- What a listed header's reader takes is a well-formed event with that header and those operand bytes. -/
theorem Listed.sound {h : Byte} {f : List Byte → Except RefuseReason (Instr × List Byte)} (hl : Listed h f)
    {bs rest : List Byte} {i : Instr} (htake : f bs = .ok (i, rest)) :
    i.wellFormed = true ∧ i.isEvent = true ∧ h :: bs = encode i ++ rest := by
  cases hl with
  | reset => cases htake; exact ⟨rfl, rfl, rfl⟩
  | rx =>
    cases bs with
    | nil => cases htake
    | cons d bs =>
      cases htake
      obtain ⟨hwf, hev, henc⟩ := rxByte_wellFormed d
      exact ⟨hwf, hev, by rw [henc]; rfl⟩
  | cmdTransmit => obtain ⟨t, ht, rfl, rfl⟩ := lenEvent_ok.1 htake; exact ⟨ht, rfl, rfl⟩
  | cmdSendWeight => obtain ⟨v, hv, rfl, rfl⟩ := numEvent_ok.1 htake; exact ⟨hv, rfl, rfl⟩
  | cmdSendStatus => obtain ⟨t, ht, rfl, rfl⟩ := lenEvent_ok.1 htake; exact ⟨ht, rfl, rfl⟩
  | txWriteOk => cases htake; exact ⟨rfl, rfl, rfl⟩
  | txWriteErr => cases htake; exact ⟨rfl, rfl, rfl⟩
  | txFlushDone => cases htake; exact ⟨rfl, rfl, rfl⟩
  | encodeWeight => obtain ⟨v, hv, rfl, rfl⟩ := numEvent_ok.1 htake; exact ⟨hv, rfl, rfl⟩
  | encodeStatus => obtain ⟨t, ht, rfl, rfl⟩ := lenEvent_ok.1 htake; exact ⟨ht, rfl, rfl⟩
  | encodeBrain =>
    obtain ⟨t, p, v, c, hwf, rfl, rfl⟩ := brainEvent_ok.1 htake
    exact ⟨hwf, rfl, by simp [encode]⟩
  | cmdDecode => obtain ⟨p, hp, rfl, rfl⟩ := lenEvent_ok.1 htake; exact ⟨hp, rfl, rfl⟩

/-- The header of what decodes is listed: the other headers are refused. -/
theorem listed_of_decodeEvent_ok {h : Byte} {bs : List Byte} {x : Instr × List Byte}
    (hd : decodeEvent (h :: bs) = .ok x) : ∃ f, Listed h f := by
  by_cases hk : h.toNat / 16 = 0 ∨ 10 ≤ h.toNat / 16
  · rw [decodeEvent_reservedKind bs hk] at hd
    cases hd
  · by_cases hm : modifierLimit (h.toNat / 16) < h.toNat % 16
    · rw [decodeEvent_reservedModifier bs (by omega) (by omega) hm] at hd
      cases hd
    · exact listed_of_header (by omega) (by omega) (by omega)

/-- Settles O2: the header of what decodes is listed, and its reader takes nothing but the event's own operands. -/
theorem decodedEventsReencode : Obligations.DecodedEventsReencode := by
  intro bs i rest hd
  cases bs with
  | nil => cases hd
  | cons h bs =>
    obtain ⟨f, hlisted⟩ := listed_of_decodeEvent_ok hd
    rw [hlisted.decodeEvent] at hd
    exact hlisted.sound hd

/-! ### What each reader refuses -/

theorem lenEvent_error_reason {mk : List Byte → Instr} {bs : List Byte} {r : RefuseReason}
    (h : lenEvent mk bs = .error r) : r = .truncatedEvent := by
  unfold lenEvent at h
  split at h
  · rename_i hread
    cases h
    exact readLen16_error_reason hread
  · cases h

theorem numEvent_error_reason {mk : Decimal → Instr} {bs : List Byte} {r : RefuseReason}
    (h : numEvent mk bs = .error r) : r = .truncatedEvent ∨ r = .badNum := by
  unfold numEvent at h
  split at h
  · rename_i hread
    cases h
    exact readNum_error_reason hread
  · cases h

theorem brainEvent_error_reason {bs : List Byte} {r : RefuseReason} (h : brainEvent bs = .error r) :
    r = .truncatedEvent ∨ r = .badNum := by
  unfold brainEvent at h
  split at h
  · rename_i hread
    cases h
    exact readNum_error_reason hread
  · split at h
    · rename_i hread
      cases h
      exact readNum_error_reason hread
    · split at h
      · rename_i hread
        cases h
        exact readNum_error_reason hread
      · exact numEvent_error_reason h

/-- Behind a listed header nothing is refused as reserved. -/
theorem Listed.error_reason {h : Byte} {f : List Byte → Except RefuseReason (Instr × List Byte)} (hl : Listed h f)
    {bs : List Byte} {r : RefuseReason} (herr : f bs = .error r) : r = .truncatedEvent ∨ r = .badNum := by
  cases hl with
  | reset | txWriteOk | txWriteErr | txFlushDone => cases herr
  | rx =>
    cases bs with
    | nil => cases herr; exact .inl rfl
    | cons d bs => cases herr
  | cmdTransmit | cmdSendStatus | encodeStatus | cmdDecode => exact .inl (lenEvent_error_reason herr)
  | cmdSendWeight | encodeWeight => exact numEvent_error_reason herr
  | encodeBrain => exact brainEvent_error_reason herr

/-- Settles O6: the two reserved classes are refused by name, and the headers left over are listed. -/
theorem reservedHeadersAreRefused : Obligations.ReservedHeadersAreRefused := by
  intro h rest
  refine ⟨decodeEvent_reservedKind rest, decodeEvent_reservedModifier rest, fun hk1 hk9 hm => ?_⟩
  obtain ⟨f, hlisted⟩ := listed_of_header hk1 hk9 hm
  rw [hlisted.decodeEvent]
  constructor
  · intro herr
    simpa using hlisted.error_reason herr
  · intro herr
    simpa using hlisted.error_reason herr

theorem lenEvent_truncated (mk : List Byte → Instr) {t : List Byte} {m : Nat} (ht : lenOperandOk t = true)
    (hm : m < (len16Bytes t).length) : lenEvent mk ((len16Bytes t).take m) = .error .truncatedEvent := by
  simp only [lenEvent, readLen16_truncated ht hm]

theorem numEvent_truncated (mk : Decimal → Instr) {d : Decimal} {m : Nat} (hd : numOperandOk d = true)
    (hm : m < (numBytes d).length) : numEvent mk ((numBytes d).take m) = .error .truncatedEvent := by
  simp only [numEvent, readNum_truncated hd hm]

/-- The cut falls into one of the four numbers, and those before it are read off. -/
theorem brainEvent_truncated {t p v c : Decimal} {m : Nat} (hwf : (Instr.encodeBrain t p v c).wellFormed = true)
    (hm : m < (numBytes t ++ (numBytes p ++ (numBytes v ++ numBytes c))).length) :
    brainEvent ((numBytes t ++ (numBytes p ++ (numBytes v ++ numBytes c))).take m) = .error .truncatedEvent := by
  simp only [Instr.wellFormed, Bool.and_eq_true] at hwf
  obtain ⟨⟨⟨ht, hp⟩, hv⟩, hc⟩ := hwf
  simp only [List.length_append] at hm
  obtain ⟨-, h1⟩ | ⟨k1, rfl, h1⟩ := readNum_take ht (numBytes p ++ (numBytes v ++ numBytes c)) m
  · simp only [brainEvent, h1]
  · obtain ⟨-, h2⟩ | ⟨k2, rfl, h2⟩ := readNum_take hp (numBytes v ++ numBytes c) k1
    · simp only [brainEvent, h1, h2]
    · obtain ⟨-, h3⟩ | ⟨k3, rfl, h3⟩ := readNum_take hv (numBytes c) k2
      · simp only [brainEvent, h1, h2, h3]
      · simp only [brainEvent, h1, h2, h3]
        exact numEvent_truncated _ hc (by omega)

/-- Settles O7: a cut before the operands' end leaves an operand unread, whichever reader the header selects. -/
theorem truncatedEventsAreRefused : Obligations.TruncatedEventsAreRefused := by
  intro i n hwf hev hpos hlt
  obtain ⟨m, rfl⟩ : ∃ m, n = m + 1 := ⟨n - 1, by omega⟩
  cases i with
  | reset | txWriteOk | txWriteErr | txFlushDone => simp [encode] at hlt
  | rxStart | rxEnd | rxData =>
    simp only [encode, List.length_cons, List.length_nil] at hlt
    obtain rfl : m = 0 := by omega
    rfl
  | cmdTransmit bs => exact lenEvent_truncated _ hwf (Nat.lt_of_succ_lt_succ hlt)
  | cmdSendWeight v => exact numEvent_truncated _ hwf (Nat.lt_of_succ_lt_succ hlt)
  | cmdSendStatus t => exact lenEvent_truncated _ hwf (Nat.lt_of_succ_lt_succ hlt)
  | encodeWeight v => exact numEvent_truncated _ hwf (Nat.lt_of_succ_lt_succ hlt)
  | encodeStatus t => exact lenEvent_truncated _ hwf (Nat.lt_of_succ_lt_succ hlt)
  | encodeBrain t p v c =>
    simp only [encode, List.append_assoc] at hlt ⊢
    exact brainEvent_truncated hwf (Nat.lt_of_succ_lt_succ hlt)
  | cmdDecode p => exact lenEvent_truncated _ hwf (Nat.lt_of_succ_lt_succ hlt)
  | decodeWeight F => cases hev
  | decodeStatus F => cases hev
  | decodeBrain F => cases hev
  | decodeUnknown p => cases hev

/-- A malformed number is refused whichever of the four it is: those before it are read off. -/
theorem brainEvent_badNum {bs : List Byte} (hbad : readNum bs = .error .badNum) (ds : List Decimal) (hlen : ds.length < 4)
    (hok : ∀ d ∈ ds, numOperandOk d = true) : brainEvent (ds.flatMap numBytes ++ bs) = .error .badNum := by
  have hread : ∀ d ∈ ds, ∀ rest, readNum (numBytes d ++ rest) = .ok (d, rest) :=
    fun d hd rest => readNum_ok.2 ⟨hok d hd, rfl⟩
  match ds, hlen with
  | [], _ => simp [brainEvent, hbad]
  | [t], _ => simp [brainEvent, hread, hbad]
  | [t, p], _ => simp [brainEvent, hread, hbad]
  | [t, p, v], _ => simp [brainEvent, numEvent, hread, hbad]

/-- Settles O8: the malformed operand is reached behind each of the three headers, and refused there. -/
theorem malformedNumbersAreRefused : Obligations.MalformedNumbersAreRefused := by
  intro text rest hlen hparse
  have hbad := readNum_badNum rest hlen hparse
  refine ⟨?_, ?_, fun ds hds hok => ?_⟩
  · rw [Listed.cmdSendWeight.decodeEvent, numEvent, hbad]
  · rw [Listed.encodeWeight.decodeEvent, numEvent, hbad]
  · rw [Listed.encodeBrain.decodeEvent, brainEvent_badNum hbad ds hds hok]

/-- Settles O5: each word is decoded by computation. -/
theorem vectorWordsDecode : Obligations.VectorWordsDecode := by
  refine ⟨?_, ?_, ?_, ?_, ?_, ?_, ?_, ?_, ?_, ?_, ?_, ?_, ?_, ?_⟩ <;> rfl

end Sys2Proof
end

section
/-! Field splitting and tag dispatch (41_codec_decode.md sections 1 and 2): splitting and joining undo each other, and a payload
and its tag row determine each other. -/

namespace Sys2Proof

/-- A byte that is no separator stands in front of the first field. -/
theorem split_cons_of_ne {s b : Byte} (h : b ≠ s) (p : List Byte) :
    ∃ f fs, split s p = f :: fs ∧ split s (b :: p) = (b :: f) :: fs := by
  obtain ⟨f, fs, hf⟩ := List.exists_cons_of_ne_nil (split_ne_nil s p)
  exact ⟨f, fs, hf, by rw [split, if_neg h, hf, consField]⟩

/-- There is one field more than separators. -/
theorem split_length (s : Byte) (p : List Byte) : (split s p).length = 1 + p.count s := by
  induction p with
  | nil => rfl
  | cons b p ih =>
    by_cases h : b = s
    · rw [split, if_pos h, List.length_cons, ih, h, List.count_cons_self]
      omega
    · obtain ⟨f, fs, hf, hcons⟩ := split_cons_of_ne h p
      rw [hf] at ih
      rw [hcons, List.count_cons_of_ne h, ← ih]
      rfl

/-- No field holds the separator. -/
theorem not_mem_of_mem_split {s : Byte} {p f : List Byte} (hf : f ∈ split s p) : s ∉ f := by
  induction p generalizing f with
  | nil => simp_all
  | cons b p ih =>
    by_cases h : b = s
    · rw [split, if_pos h, List.mem_cons] at hf
      obtain rfl | hf := hf
      · simp
      · exact ih hf
    · obtain ⟨g, gs, hg, hcons⟩ := split_cons_of_ne h p
      rw [hg] at ih
      rw [hcons, List.mem_cons] at hf
      obtain rfl | hf := hf
      · simpa [Ne.symm h] using ih List.mem_cons_self
      · exact ih (List.mem_cons_of_mem g hf)

theorem joinFields_cons {F : List (List Byte)} (f : List Byte) (hF : F ≠ []) :
    joinFields (f :: F) = f ++ separator :: joinFields F := by
  obtain ⟨g, gs, rfl⟩ := List.exists_cons_of_ne_nil hF
  rfl

theorem joinFields_cons_cons (b : Byte) (f : List Byte) (F : List (List Byte)) :
    joinFields ((b :: f) :: F) = b :: joinFields (f :: F) := by
  cases F <;> rfl

/-- Joining the fields of a payload gives it back. -/
@[simp] theorem joinFields_fieldsOf (p : List Byte) : joinFields (fieldsOf p) = p := by
  unfold fieldsOf
  induction p with
  | nil => rfl
  | cons b p ih =>
    by_cases h : b = separator
    · rw [split, if_pos h, joinFields_cons _ (split_ne_nil _ _), ih, h, List.nil_append]
    · obtain ⟨f, fs, hf, hcons⟩ := split_cons_of_ne h p
      rw [hcons, joinFields_cons_cons, ← hf, ih]

/-- A text without separators is one field. -/
theorem split_of_not_mem {s : Byte} {f : List Byte} (h : s ∉ f) : split s f = [f] := by
  induction f with
  | nil => rfl
  | cons b f ih =>
    obtain ⟨hb, hf⟩ := List.ne_and_not_mem_of_not_mem_cons h
    rw [split, if_neg (Ne.symm hb), ih hf, consField]

/-- The first separator ends the first field. -/
theorem split_append_separator {s : Byte} {f : List Byte} (h : s ∉ f) (p : List Byte) :
    split s (f ++ s :: p) = f :: split s p := by
  induction f with
  | nil => simp [split]
  | cons b f ih =>
    obtain ⟨hb, hf⟩ := List.ne_and_not_mem_of_not_mem_cons h
    rw [List.cons_append, split, if_neg (Ne.symm hb), ih hf, consField]

/-- The fields of joined fields are those fields. -/
theorem fieldsOf_joinFields {F : List (List Byte)} (hF : F ≠ []) (h : ∀ f ∈ F, separator ∉ f) :
    fieldsOf (joinFields F) = F := by
  unfold fieldsOf
  induction F with
  | nil => exact absurd rfl hF
  | cons f F ih =>
    obtain ⟨hf, hrest⟩ := List.forall_mem_cons.1 h
    by_cases hnil : F = []
    · rw [hnil, joinFields, split_of_not_mem hf]
    · rw [joinFields_cons f hnil, split_append_separator hf, ih hnil hrest]

/-- Settles O49: the three facts of splitting at the separator. -/
theorem splittingLosesNothing : Obligations.SplittingLosesNothing :=
  fun p => ⟨split_length separator p, fun _ hf => not_mem_of_mem_split hf, joinFields_fieldsOf p⟩

/-- A well-formed field list begins with its tag and holds no separator. -/
theorem fieldListOk_iff {tag : List Byte} {F : List (List Byte)} :
    fieldListOk tag F = true ↔ F.head? = some tag ∧ ∀ f ∈ F, separator ∉ f := by
  simp [fieldListOk]

/-- A payload of unknown tag has none of the three as its first field. -/
theorem unknownTagOk_iff {p : List Byte} :
    unknownTagOk p = true ↔ firstField p ≠ tagWeight ∧ firstField p ≠ tagStatus ∧ firstField p ≠ tagBrain := by
  simp only [unknownTagOk, Bool.and_eq_true, decide_eq_true_eq, and_assoc]

/-- The joined fields of a well-formed field list split into them. -/
theorem fieldsOf_joinFields_of_ok {tag : List Byte} {F : List (List Byte)} (h : fieldListOk tag F = true) :
    fieldsOf (joinFields F) = F := by
  obtain ⟨hhead, hsep⟩ := fieldListOk_iff.1 h
  refine fieldsOf_joinFields (fun hnil => ?_) hsep
  simp [hnil] at hhead

/-- The fields of a payload with a given first field are a well-formed field list of that tag. -/
theorem fieldListOk_fieldsOf {p tag : List Byte} (h : firstField p = tag) : fieldListOk tag (fieldsOf p) = true :=
  fieldListOk_iff.2 ⟨by rw [fieldsOf_head, h], fun _ hf => not_mem_of_mem_split hf⟩

/-- The row of a payload by its first field. -/
theorem decodeTag_by_firstField (p : List Byte) :
    decodeTag p = if firstField p = tagWeight then .decodeWeight (fieldsOf p)
      else if firstField p = tagStatus then .decodeStatus (fieldsOf p)
      else if firstField p = tagBrain then .decodeBrain (fieldsOf p)
      else .decodeUnknown p := by
  rw [decodeTag, Machine.tagOf_fieldsOf]
  split_ifs <;> rfl

theorem firstField_joinFields {tag : List Byte} {F : List (List Byte)} (h : fieldListOk tag F = true) :
    firstField (joinFields F) = tag := by
  have hhead := fieldsOf_head (joinFields F)
  rw [fieldsOf_joinFields_of_ok h, (fieldListOk_iff.1 h).1] at hhead
  exact (Option.some.inj hhead).symm

/-- Settles O3: the fields of a row's payload are its fields, and the first of them is its tag. -/
theorem tagRowsDecodeBack : Obligations.TagRowsDecodeBack := by
  intro i hwf hev
  rw [decodeTag_by_firstField]
  cases i with
  | decodeWeight F =>
    rw [encode, firstField_joinFields hwf, fieldsOf_joinFields_of_ok hwf]
    rfl
  | decodeStatus F =>
    rw [encode, firstField_joinFields hwf, fieldsOf_joinFields_of_ok hwf]
    rfl
  | decodeBrain F =>
    rw [encode, firstField_joinFields hwf, fieldsOf_joinFields_of_ok hwf]
    rfl
  | decodeUnknown p =>
    obtain ⟨hweight, hstatus, hbrain⟩ := unknownTagOk_iff.1 hwf
    rw [encode, if_neg hweight, if_neg hstatus, if_neg hbrain]
  | _ => cases hev

/-- Settles O4: the row selected is that of the first field, and joining its fields gives the payload back. -/
theorem everyPayloadSelectsARow : Obligations.EveryPayloadSelectsARow := by
  intro p
  rw [decodeTag_by_firstField]
  split_ifs with hweight hstatus hbrain
  · exact ⟨fieldListOk_fieldsOf hweight, rfl, joinFields_fieldsOf p⟩
  · exact ⟨fieldListOk_fieldsOf hstatus, rfl, joinFields_fieldsOf p⟩
  · exact ⟨fieldListOk_fieldsOf hbrain, rfl, joinFields_fieldsOf p⟩
  · exact ⟨unknownTagOk_iff.2 ⟨hweight, hstatus, hbrain⟩, rfl, rfl⟩

end Sys2Proof

namespace Sys2Proof.Machine

/-- Settles O42: each enabled row answers its message. -/
theorem tagRowsAnswer : Obligations.TagRowsAnswer := fun _ _ _ henabled =>
  ⟨answerDecode_of_enabled henabled, answerDecode_of_enabled henabled, answerDecode_of_enabled henabled,
    answerDecode_of_enabled henabled⟩

/-- Settles O43: the query and the selected row answer the message of one tag. -/
theorem cmdDecodeRunsTheSelectedRow : Obligations.CmdDecodeRunsTheSelectedRow := by
  intro s p
  show answerDecode s (decodeMsg s.cfg p) = exec (decodeTag p) s
  obtain ⟨htag, hrow⟩ | ⟨htag, hrow⟩ | ⟨htag, hrow⟩ | ⟨htag, hrow⟩ := decodeTag_cases p <;>
    · rw [hrow, decodeMsg, htag]
      rfl

end Sys2Proof.Machine
end

section
/-! Numbers rendered and parsed (40_codec_encode.md section 1, 41_codec_decode.md sections 1 and 3). -/

namespace Sys2Proof.Machine

/-- Settles O44: the quotient and the remainder of the rounded number by `10^N` are written on the two sides of the point. -/
theorem renderedNumberShape : Obligations.RenderedNumberShape := by
  intro N v hN
  obtain ⟨ip, hip, hipValue, hipNe, hipZero, -⟩ := dec_spec (scaled N v / 10 ^ N)
  obtain ⟨fp, hfp, hfpLength, hfpValue⟩ := pad_spec N (scaled N v % 10 ^ N) hN (Nat.mod_lt _ (by positivity))
  refine ⟨ip, fp, by rw [fmt, hip, hfp], hfpLength, hipNe, hipZero, ?_⟩
  rw [digitsValue_append, hipValue, hfpValue, hfpLength, Nat.div_add_mod', scaled_floor]

/-- The sign that `fmt` writes (R101). -/
def renderedSign (v : Rat) : Option Sign := if v < 0 then some .minus else none

/-- A rendered number is the text of a well-formed decimal whose digits are the rounded number. -/
theorem fmt_eq_text {N : Nat} (hN : 1 ≤ N) (v : Rat) : ∃ ip fp : List (Fin 10),
    fmt N v = Decimal.text ⟨renderedSign v, ip, some fp⟩ ∧ ip ≠ [] ∧ fp.length = N ∧
      (digitsValue (ip ++ fp) : Int) = ⌊|v| * (10 : Rat) ^ N + 1 / 2⌋ := by
  obtain ⟨ip, fp, hfmt, hlen, hne, -, hvalue⟩ := renderedNumberShape N v hN
  refine ⟨ip, fp, ?_, hne, hlen, hvalue⟩
  rw [hfmt, Decimal.text, renderedSign]
  split_ifs <;> rfl

/-- The value of digits on both sides of the point is that of all the digits, scaled. -/
theorem coreValue_eq_div (s : Option Sign) (ip fp : List (Fin 10)) :
    coreValue ⟨s, ip, some fp⟩ = signValue s * (digitsValue (ip ++ fp) : Rat) / (10 : Rat) ^ fp.length := by
  have hpow : (10 : Rat) ^ fp.length ≠ 0 := by positivity
  rw [coreValue, digitsValue_append]
  simp only [Option.getD_some]
  push_cast
  field_simp

/-- The sign written is the number's own wherever the rounded number is not zero. -/
theorem signValue_renderedSign (v : Rat) (N : Nat) :
    signValue (renderedSign v) * (⌊|v| * (10 : Rat) ^ N + 1 / 2⌋ : Rat) =
      SignType.sign v * (⌊|v| * (10 : Rat) ^ N + 1 / 2⌋ : Rat) := by
  obtain hneg | rfl | hpos := lt_trichotomy v 0
  · simp [renderedSign, hneg, signValue]
  · have hzero : ⌊(1 / 2 : Rat)⌋ = 0 := by rw [Int.floor_eq_zero_iff]; norm_num
    simp only [abs_zero, zero_mul, zero_add, hzero, Int.cast_zero, mul_zero]
  · simp [renderedSign, hpos.le, signValue, hpos]

/-- The text of a well-formed decimal has its value, whatever `NUM_LENIENT` is. -/
theorem parseNum_text (c : Config) {d : Decimal} (h : d.wellFormed = true) : parseNum c d.text = coreValue d := by
  have hparse : parseCore d.text = some d := parseCore_eq_some.2 ⟨h, rfl⟩
  cases htext : d.text with
  | nil =>
    rw [htext] at hparse
    cases hparse
  | cons b bs =>
    rw [htext] at hparse
    simp only [parseNum, hparse]

/-- Settles O45: the text rendered is a decimal's, and the decimal's value is the rounded number. -/
theorem renderedNumberParsesBack : Obligations.RenderedNumberParsesBack := by
  intro c N v hN
  obtain ⟨ip, fp, htext, hne, hlen, hvalue⟩ := fmt_eq_text hN v
  have hcast : (digitsValue (ip ++ fp) : Rat) = (⌊|v| * (10 : Rat) ^ N + 1 / 2⌋ : Rat) := by
    rw [← hvalue, Int.cast_natCast]
  rw [htext, parseNum_text c ((Decimal.wellFormed_some _ _ _).2 (.inl hne)), coreValue_eq_div, hcast, hlen,
    signValue_renderedSign, rounded]

/-! ### Numeric fields (41_codec_decode.md R160 to R163) -/

theorem parseNum_malformed (c : Config) {f : List Byte} (hne : f ≠ []) (h : parseCore f = none) :
    parseNum c f = numLenient c f := by
  cases f with
  | nil => exact absurd rfl hne
  | cons b bs => simp only [parseNum, h]

theorem numField_of_some (c : Config) {F : List (List Byte)} {i : Nat} {f : List Byte} (h : F[i]? = some f) :
    numField c F i = parseNum c f := by simp only [numField, h]

/-- The longest `core` beginning decides the value (R162). -/
theorem prefixValue_of_longest {f : List Byte} {n m : Nat} {d : Decimal} (hnm : n ≤ m)
    (hn : parseCore (f.take n) = some d) (hlong : ∀ k, n < k → k ≤ m → parseCore (f.take k) = none) :
    prefixValue f m = coreValue d := by
  induction m with
  | zero =>
    obtain rfl : n = 0 := by omega
    cases hn
  | succ m ih =>
    obtain rfl | hlt := Nat.eq_or_lt_of_le hnm
    · simp only [prefixValue, hn]
    · simp only [prefixValue, hlong (m + 1) hlt le_rfl]
      exact ih (by omega) fun k hk hkm => hlong k hk (by omega)

/-- Without a `core` beginning the value is zero (R162). -/
theorem prefixValue_of_none {f : List Byte} {m : Nat} (h : ∀ k ≤ m, parseCore (f.take k) = none) :
    prefixValue f m = 0 := by
  induction m with
  | zero => rfl
  | succ m ih =>
    simp only [prefixValue, h (m + 1) le_rfl]
    exact ih fun k hk => h k (by omega)

theorem numLenient_longestPrefix {c : Config} (h : c.numLenient = .longestPrefix) (f : List Byte) :
    numLenient c f = prefixValue f f.length := by simp only [numLenient, h]

/-- Settles O50: the field decides which of the four readings applies, and the default reads the longest `core` beginning. -/
theorem numericFieldValues : Obligations.NumericFieldValues := by
  refine ⟨fun c F i => ⟨fun hmissing => ?_, fun hempty => ?_, fun d hd hcore => ?_, fun f hf hne hparse => ?_⟩,
    fun c f hdefault => ⟨fun n d hn hparse hlong => ?_, fun hnone => ?_⟩⟩
  · simp only [numField, List.getElem?_eq_none hmissing]
  · rw [numField_of_some c hempty, parseNum]
  · rw [numField_of_some c hcore, parseNum_text c hd]
  · rw [numField_of_some c hf, parseNum_malformed c hne hparse]
  · rw [numLenient_longestPrefix hdefault, prefixValue_of_longest hn hparse hlong]
  · rw [numLenient_longestPrefix hdefault, prefixValue_of_none hnone]

end Sys2Proof.Machine
end

section
/-! Frames (40_codec_encode.md section 2): what the encoder writes between the markers, its length, and what decoding it gives. -/

namespace Sys2Proof.Machine

/-- The text check admits exactly the texts without markers and separators (R104). -/
theorem validText_iff {t : List Byte} : validText t = true ↔ ∀ b ∈ t, b ≠ 0x3C ∧ b ≠ 0x3E ∧ b ≠ 0x7C := by
  simp [validText, and_assoc]

/-- The text check refuses exactly the texts that hold one of the three bytes. -/
theorem not_validText_iff {t : List Byte} : ¬ validText t = true ↔ ∃ b ∈ t, b = 0x3C ∨ b = 0x3E ∨ b = 0x7C := by
  rw [validText_iff]
  push Not
  refine exists_congr fun b => and_congr_right fun _ => ?_
  tauto

theorem validText_append (t u : List Byte) : validText (t ++ u) = (validText t && validText u) := List.all_append

theorem validText_digits (ds : List (Fin 10)) : validText (ds.map digitByte) = true := by
  have hdigit : ∀ d : Fin 10, digitByte d ≠ 0x3C ∧ digitByte d ≠ 0x3E ∧ digitByte d ≠ 0x7C := by decide
  exact validText_iff.2 (List.forall_mem_map.2 fun d _ => hdigit d)

theorem validText_dec (n : Nat) : validText (dec n) = true := by
  obtain ⟨ds, hds, -⟩ := dec_spec n
  rw [hds, validText_digits]

theorem validText_pad (N : Nat) {t : List Byte} (h : validText t = true) : validText (pad N t) = true := by
  have hzeros : validText (List.replicate (N - t.length) zeroDigit) = true :=
    List.all_eq_true.2 fun b hb => by rw [List.eq_of_mem_replicate hb]; rfl
  rw [pad, validText_append, hzeros, h]
  rfl

/-- A rendered number, of any number of decimals, passes the text check. -/
theorem validText_fmt (N : Nat) (v : Rat) : validText (fmt N v) = true := by
  have hsign : validText (if v < 0 then [minusByte] else []) = true := by split_ifs <;> rfl
  have hdot : validText (dotByte :: pad N (dec (scaled N v % 10 ^ N))) = true := validText_pad N (validText_dec _)
  rw [fmt, validText_append, validText_append, hsign, validText_dec, hdot]
  rfl

theorem separator_not_mem_of_validText {t : List Byte} (h : validText t = true) : separator ∉ t :=
  fun hmem => (validText_iff.1 h _ hmem).2.2 rfl

@[simp] theorem frameBody_frame (F : List (List Byte)) : frameBody (frame F) = joinFields F := by
  simp [frameBody, frame]

/-- Fields that pass the text check are the fields of their frame's body. -/
theorem fieldsOf_frameBody {F : List (List Byte)} (hF : F ≠ []) (h : ∀ f ∈ F, validText f = true) :
    fieldsOf (frameBody (frame F)) = F := by
  rw [frameBody_frame, fieldsOf_joinFields hF fun f hf => separator_not_mem_of_validText (h f hf)]

/-- Fields that pass the text check are joined to ordinary bytes. -/
theorem ordinary_joinFields {F : List (List Byte)} (h : ∀ f ∈ F, validText f = true) :
    ∀ b ∈ joinFields F, Ordinary b := by
  have hvalid : ∀ f ∈ F, ∀ b ∈ f, Ordinary b :=
    fun f hf b hb => (validText_iff.1 (h f hf) b hb).imp_right And.left
  clear h
  induction F with
  | nil => simp [joinFields]
  | cons f F ih =>
    obtain ⟨hf, hrest⟩ := List.forall_mem_cons.1 hvalid
    by_cases hnil : F = []
    · rwa [hnil, joinFields]
    · rw [joinFields_cons f hnil]
      exact List.forall_mem_append.2 ⟨hf, List.forall_mem_cons.2 ⟨by decide, ih hrest⟩⟩

/-- A frame of fields that pass the text check holds markers at its ends only. -/
theorem boundedByMarkers_frame {F : List (List Byte)} (h : ∀ f ∈ F, validText f = true) :
    BoundedByMarkers (frame F) :=
  ⟨joinFields F, rfl, ordinary_joinFields h⟩

/-! ### The length check (R103) -/

theorem sized_ok {c : Config} {f g : List Byte} : sized c f = (.ok, g) ↔ f.length ≤ c.txCap ∧ g = f := by
  obtain ⟨hfit, heq⟩ | ⟨hover, heq⟩ := sized_cases c f
  · simp [heq, hfit, eq_comm]
  · simp [heq, Nat.not_le.2 hover]

theorem sized_fst_ok {c : Config} {f : List Byte} : (sized c f).1 = .ok ↔ f.length ≤ c.txCap := by
  obtain ⟨hfit, heq⟩ | ⟨hover, heq⟩ := sized_cases c f
  · simp [heq, hfit]
  · simp [heq, Nat.not_le.2 hover]

/-- A Status message is encoded exactly where its text passes the check and its frame fits (R106). -/
theorem encStatus_ok {c : Config} {x f : List Byte} :
    encStatus c x = (.ok, f) ↔
      validText x = true ∧ (frame [tagStatus, x]).length ≤ c.txCap ∧ f = frame [tagStatus, x] := by
  unfold encStatus
  split_ifs with hvalid
  · simp [hvalid, sized_ok]
  · simp [hvalid]

theorem encStatus_fst_ok {c : Config} {x : List Byte} :
    (encStatus c x).1 = .ok ↔ validText x = true ∧ (frame [tagStatus, x]).length ≤ c.txCap := by
  unfold encStatus
  split_ifs with hvalid
  · simp [hvalid, sized_fst_ok]
  · simp [hvalid]

/-- The fields of each message's frame pass the text check. -/
theorem validText_weightFields (v : Rat) : ∀ f ∈ [tagWeight, fmt Config.weightDecimals v], validText f = true := by
  simpa [validText_fmt] using (by decide : validText tagWeight = true)

theorem validText_statusFields {x : List Byte} (h : validText x = true) : ∀ f ∈ [tagStatus, x], validText f = true := by
  simpa [h] using (by decide : validText tagStatus = true)

theorem validText_brainFields (N : Nat) (t p v i : Rat) :
    ∀ f ∈ [tagBrain, fmt N t, fmt Config.pctDecimals p, fmt Config.voltDecimals v, fmt Config.currDecimals i],
      validText f = true := by
  simpa [validText_fmt] using (by decide : validText tagBrain = true)

/-! ### Decoding a frame (41_codec_decode.md section 3) -/

theorem decodeMsg_weightFrame (c : Config) (v : Rat) :
    decodeMsg c (frameBody (frame [tagWeight, fmt Config.weightDecimals v])) = .weight (rounded 2 v) := by
  rw [decodeMsg, fieldsOf_frameBody (by simp) (validText_weightFields v),
    ← renderedNumberParsesBack c 2 v (by decide)]
  rfl

theorem decodeMsg_statusFrame (c : Config) {x : List Byte} (h : validText x = true) :
    decodeMsg c (frameBody (frame [tagStatus, x])) = .status x := by
  rw [decodeMsg, fieldsOf_frameBody (by simp) (validText_statusFields h)]
  rfl

theorem decodeMsg_brainFrame {c : Config} (hdecimals : 1 ≤ c.brainTimeDecimals) (t p v i : Rat) :
    decodeMsg c (frameBody (frame [tagBrain, fmt c.brainTimeDecimals t, fmt Config.pctDecimals p,
        fmt Config.voltDecimals v, fmt Config.currDecimals i])) =
      .brain (rounded c.brainTimeDecimals t) (rounded 1 p) (rounded 2 v) (rounded 2 i) := by
  rw [decodeMsg, fieldsOf_frameBody (by simp) (validText_brainFields _ t p v i),
    ← renderedNumberParsesBack c _ t hdecimals, ← renderedNumberParsesBack c 1 p (by decide),
    ← renderedNumberParsesBack c 2 v (by decide), ← renderedNumberParsesBack c 2 i (by decide)]
  rfl

theorem one_le_brainTimeDecimals {c : Config} (h : c.legal = true) : 1 ≤ c.brainTimeDecimals := by
  simp only [Config.legal, Bool.and_eq_true, decide_eq_true_eq] at h
  exact h.2

/-- Settles O46: an encoded message is its frame, whose body splits into its fields again. -/
theorem codecRoundTrip : Obligations.CodecRoundTrip := by
  intro c hlegal
  refine ⟨fun v f henc => ?_, fun x f henc => ?_, fun t p v i f henc => ?_⟩
  · obtain ⟨-, rfl⟩ := sized_ok.1 henc
    exact decodeMsg_weightFrame c v
  · obtain ⟨hvalid, -, rfl⟩ := encStatus_ok.1 henc
    exact decodeMsg_statusFrame c hvalid
  · obtain ⟨-, rfl⟩ := sized_ok.1 henc
    exact decodeMsg_brainFrame (one_le_brainTimeDecimals hlegal) t p v i

/-! ### Lengths (40_codec_encode.md section 2) -/

theorem weightFrame_length (v : Rat) :
    (frame [tagWeight, fmt Config.weightDecimals v]).length = 9 + (fmt 2 v).length := by
  simp [frame, joinFields, Config.weightDecimals]
  omega

theorem statusFrame_length (x : List Byte) : (frame [tagStatus, x]).length = 9 + x.length := by
  simp [frame, joinFields]
  omega

theorem brainFrame_length (N : Nat) (t p v i : Rat) :
    (frame [tagBrain, fmt N t, fmt Config.pctDecimals p, fmt Config.voltDecimals v, fmt Config.currDecimals i]).length =
      11 + (fmt N t).length + (fmt 1 p).length + (fmt 2 v).length + (fmt 2 i).length := by
  simp [frame, joinFields, Config.pctDecimals, Config.voltDecimals, Config.currDecimals]
  omega

/-- Settles O48: each answered frame is the message's own, of fields that pass the text check. -/
theorem encodedFramesAreBounded : Obligations.EncodedFramesAreBounded := by
  intro c v t p u i x nb hnb
  rw [← brainFrame_length] at hnb
  refine ⟨?_, ?_, ?_, fun f henc => ?_, fun f henc => ?_, fun f henc => ?_⟩
  · rw [encWeight, sized_fst_ok, weightFrame_length]
  · rw [encStatus_fst_ok, validText_iff, statusFrame_length]
  · rw [encBrain, sized_fst_ok, hnb]
  · obtain ⟨hfit, rfl⟩ := sized_ok.1 henc
    exact ⟨weightFrame_length v, hfit, boundedByMarkers_frame (validText_weightFields v)⟩
  · obtain ⟨hvalid, hfit, rfl⟩ := encStatus_ok.1 henc
    exact ⟨statusFrame_length x, hfit, boundedByMarkers_frame (validText_statusFields hvalid)⟩
  · obtain ⟨hfit, rfl⟩ := sized_ok.1 henc
    exact ⟨hnb.symm, hfit, boundedByMarkers_frame (validText_brainFields _ t p u i)⟩

/-! ### The encode queries -/

/-- Settles O39: the text check decides first, and a text that passes it comes to the length check. -/
theorem encodeStatusAnswers : Obligations.EncodeStatusAnswers := by
  intro s x f henabled hf
  have hframe : f = frame [tagStatus, x] := by rw [frame_pair, hf]
  show answerEncode s (encStatus s.cfg x) = _
  by_cases hvalid : validText x = true
  · rw [if_neg (not_validText_iff.not_right.1 hvalid), hframe, encStatus, if_pos hvalid]
    exact answerEncode_sized henabled _
  · rw [if_pos (not_validText_iff.1 hvalid), encStatus, if_neg hvalid]
    exact answerEncode_of_enabled henabled

/-- Settles O40: the frame of the tag and the four numbers comes to the length check. -/
theorem encodeBrainAnswers : Obligations.EncodeBrainAnswers := by
  intro s t p v c f henabled hf
  have hframe : f = frame [tagBrain, fmt s.cfg.brainTimeDecimals (coreValue t), fmt Config.pctDecimals (coreValue p),
      fmt Config.voltDecimals (coreValue v), fmt Config.currDecimals (coreValue c)] := by
    rw [hf]
    simp [frame, joinFields, Config.pctDecimals, Config.voltDecimals, Config.currDecimals]
  rw [hframe]
  exact answerEncode_sized henabled _

end Sys2Proof.Machine
end

section
/-! What an event does, said once for all of them: a query answers, an event faults or is performed (60_exceptions.md R255, R257),
and in a state that meets the invariant one of the two happens. -/

namespace Sys2Proof.Machine

/-! ### The step (20_memory.md R59, 60_exceptions.md R255, R258) -/

/-- Settles O12: every meaning is guarded by the fault, and so is the step. -/
theorem noStepAfterAFault : Obligations.NoStepAfterAFault := by
  intro s r hfault
  refine ⟨fun i => ?_, fun hrefused => ?_⟩
  · cases i <;> exact whenEnabled_some hfault
  · simp only [step, fetch, hrefused, hfault]

theorem fetch_of_ok {s : State} {i : Instr} {rest : List Byte} (hrefused : s.refused = none) (henabled : s.fault = none)
    (hd : decodeEvent s.input = .ok (i, rest)) : fetch s = .event i (consume s rest) := by
  cases hin : s.input with
  | nil =>
    rw [hin] at hd
    cases hd
  | cons b bs =>
    rw [hin] at hd
    simp only [fetch, hrefused, henabled, hin, hd]

/-- Settles O10: the event is fetched and performed, or both sides stop at the recorded fault. -/
theorem stepPerformsTheNextEvent : Obligations.StepPerformsTheNextEvent := by
  intro s i rest hrefused hd
  show step s = exec i (consume s rest)
  cases hfault : s.fault with
  | some r =>
    obtain ⟨-, hstep⟩ := noStepAfterAFault s r hfault
    obtain ⟨hexec, -⟩ := noStepAfterAFault (consume s rest) r hfault
    rw [hstep hrefused, hexec i]
  | none =>
    rw [step, fetch_of_ok hrefused hfault hd]

/-- Settles O11: the three ways in which a step finds no event to perform. -/
theorem stepWithoutAnEventToPerform : Obligations.StepWithoutAnEventToPerform := by
  refine ⟨fun s r hrefused henabled hne hd => ?_, fun s r hrefused => ?_, fun s hrefused henabled hempty => ?_⟩
  · obtain ⟨b, bs, hin⟩ := List.exists_cons_of_ne_nil hne
    rw [hin] at hd
    simp only [step, fetch, hrefused, henabled, hin, hd, markRefused]
  · simp only [step, fetch, hrefused]
  · simp only [step, fetch, hrefused, henabled, hempty]

/-! ### Queries (43_transceiver.md R220) -/

/-- The answer of an encode or decode query; the other events are no queries. -/
def queryAnswer (c : Config) : Instr → Option OutEvent
  | .encodeWeight v => some (.encOut (encWeight c (coreValue v)).1 (encWeight c (coreValue v)).2)
  | .encodeStatus t => some (.encOut (encStatus c t).1 (encStatus c t).2)
  | .encodeBrain t p v i =>
    some (.encOut (encBrain c (coreValue t) (coreValue p) (coreValue v) (coreValue i)).1
      (encBrain c (coreValue t) (coreValue p) (coreValue v) (coreValue i)).2)
  | .cmdDecode p => some (.decOut (decodeMsg c p))
  | .decodeWeight F => some (.decOut (msgWeight c F))
  | .decodeStatus F => some (.decOut (msgStatus F))
  | .decodeBrain F => some (.decOut (msgBrain c F))
  | .decodeUnknown p => some (.decOut (msgUnknown p))
  | _ => none

/-- A query's only effect is to emit its answer. -/
theorem exec_query {i : Instr} {s : State} {e : OutEvent} (h : queryAnswer s.cfg i = some e) :
    exec i s = whenEnabled s (.next (emit s e)) := by
  cases i <;> cases h <;> rfl

/-- The events that are no queries are the receive steps, the transceiver steps and RESET. -/
theorem exists_queryAnswer {i : Instr} (c : Config) (hrx : ¬ IsReceive i) (htx : ¬ IsTransceiver i) (hreset : i ≠ .reset) :
    ∃ e, queryAnswer c i = some e := by
  cases i with
  | reset => exact absurd rfl hreset
  | rxStart | rxEnd | rxData => exact absurd trivial hrx
  | cmdTransmit | cmdSendWeight | cmdSendStatus | txWriteOk | txWriteErr | txFlushDone => exact absurd trivial htx
  | _ => exact ⟨_, rfl⟩

/-- An output that answers a query: `EncOut` with bytes that fit the transmit buffer, or `DecOut`. -/
def IsAnswer (c : Config) (e : OutEvent) : Prop :=
  (∃ code bytes, e = .encOut code bytes ∧ bytes.length ≤ c.txCap) ∨ ∃ m, e = .decOut m

theorem sized_snd_length (c : Config) (f : List Byte) : (sized c f).2.length ≤ c.txCap := by
  obtain ⟨hfit, heq⟩ | ⟨-, heq⟩ := sized_cases c f
  · rwa [heq]
  · simp [heq]

theorem encStatus_snd_length (c : Config) (t : List Byte) : (encStatus c t).2.length ≤ c.txCap := by
  unfold encStatus
  split_ifs
  · exact sized_snd_length c _
  · exact Nat.zero_le _

/-- What a query answers is an answer, and the event is a query. -/
theorem queryAnswer_some {c : Config} {i : Instr} {e : OutEvent} (h : queryAnswer c i = some e) :
    IsAnswer c e ∧ ¬ IsReceive i ∧ ¬ IsTransceiver i ∧ i ≠ .reset := by
  cases i with
  | encodeWeight v => cases h; exact ⟨.inl ⟨_, _, rfl, sized_snd_length c _⟩, id, id, nofun⟩
  | encodeStatus t => cases h; exact ⟨.inl ⟨_, _, rfl, encStatus_snd_length c t⟩, id, id, nofun⟩
  | encodeBrain => cases h; exact ⟨.inl ⟨_, _, rfl, sized_snd_length c _⟩, id, id, nofun⟩
  | cmdDecode | decodeWeight | decodeStatus | decodeBrain | decodeUnknown =>
    cases h; exact ⟨.inr ⟨_, rfl⟩, id, id, nofun⟩
  | _ => cases h

/-- Settles O55: what is neither a receive step nor a transceiver step nor RESET is a query. -/
theorem queriesWriteNoState : Obligations.QueriesWriteNoState := by
  intro i s henabled hrx htx hreset
  obtain ⟨e, he⟩ := exists_queryAnswer s.cfg hrx htx hreset
  obtain ⟨hanswer, -⟩ := queryAnswer_some he
  refine ⟨e, ?_, hanswer⟩
  rw [exec_query he, whenEnabled_none henabled]
  rfl

/-! ### Every effect an event can have -/

/-- The three commands (43_transceiver.md section 2). -/
def IsCommand (i : Instr) : Prop :=
  (∃ bs, i = .cmdTransmit bs) ∨ (∃ v, i = .cmdSendWeight v) ∨ ∃ x, i = .cmdSendStatus x

/-- What an event does that does not fault: the state it answers, by the rule that gives the effect. -/
inductive Performed (s : State) : Instr → State → Prop
  | reset : Performed s .reset (clearBlock (cutLine (releaseLine s)))
  | frameOpened : s.txPhase = .idle → Performed s .rxStart (openFrame s)
  | endIgnored : s.txPhase = .idle → s.rxState = .idle → Performed s .rxEnd s
  | dataIgnored {d : Byte} : s.txPhase = .idle → s.rxState = .idle ∨ s.cfg.rxCap - 1 ≤ s.rxIdx → Performed s (.rxData d) s
  | frameCompleted {p : List Byte} : s.txPhase = .idle → s.rxState = .acc → readPayload s s.rxIdx = .ok p →
      Performed s .rxEnd (completeFrame s p)
  | byteAppended {d : Byte} : s.txPhase = .idle → s.rxState = .acc → s.rxIdx < s.cfg.rxCap - 1 →
      Performed s (.rxData d) (appendByte s d)
  | started {i : Instr} {bs : List Byte} : IsCommand i → s.txPhase = .idle → bs.length ≤ s.cfg.txCap →
      Performed s i (start s bs)
  | rejected {i : Instr} {code : ResultCode} : IsCommand i → s.txPhase = .idle → code ≠ .ok →
      Performed s i (emit s (.result code))
  | nextRequested {b : Byte} : s.txPhase = .write → s.txPos + 1 < s.txLen → readTx s (s.txPos + 1) = .ok b →
      Performed s .txWriteOk (requestByte (advance s) b)
  | lastAccepted : s.txPhase = .write → s.txLen ≤ s.txPos + 1 → Performed s .txWriteOk (requestFlush (advance s))
  | writeFailed : s.txPhase = .write → Performed s .txWriteErr (requestFlush (noteError s))
  | flushed : s.txPhase = .flush → Performed s .txFlushDone (emit (releaseTx s) (.result (txResult s)))
  | answered {i : Instr} {e : OutEvent} : queryAnswer s.cfg i = some e → Performed s i (emit s e)

/-- The fault table (60_exceptions.md R257) or the meaning decides what an enabled event does. -/
def Effect (s : State) (i : Instr) (t : State) : Prop :=
  (FaultsWhen i s ∧ ∃ c n, t = faulted s c n) ∨ (¬ FaultsWhen i s ∧ Performed s i t)

/-- A command that comes to sending what the encoder answered starts the frame, which fits, or rejects. -/
theorem performed_sendEncoded {s : State} {i : Instr} {r : ResultCode × List Byte} (hi : IsCommand i)
    (hidle : s.txPhase = .idle) (hr : r.2.length ≤ s.cfg.txCap) : Performed s i (sendEncoded s r) := by
  obtain ⟨-, heq⟩ | ⟨hcode, heq⟩ := sendEncoded_cases s r
  · rw [heq]
    exact .started hi hidle hr
  · rw [heq]
    exact .rejected hi hidle hcode

/-- An enabled event in its phase is performed. -/
theorem Effect.of_eq {s t : State} {i : Instr} {p : TxPhase} (hfaults : FaultsWhen i s ↔ s.txPhase ≠ p)
    (hphase : s.txPhase = p) (h : Performed s i t) : Effect s i t :=
  .inr ⟨fun hf => hfaults.1 hf hphase, h⟩

/-- Everything an event can have done when it answers a next state. -/
theorem exec_effect {i : Instr} {s t : State} (h : exec i s = .next t) : s.fault = none ∧ Effect s i t := by
  cases i with
  | reset =>
    obtain ⟨henabled, rfl⟩ := execReset_next h
    exact ⟨henabled, .inr ⟨id, .reset⟩⟩
  | rxStart =>
    obtain ⟨henabled, ⟨hp, rfl⟩ | ⟨hp, rfl⟩⟩ := execRxStart_next h
    · exact ⟨henabled, .of_eq .rfl hp (.frameOpened hp)⟩
    · exact ⟨henabled, .inl ⟨hp, _, _, rfl⟩⟩
  | rxEnd =>
    obtain ⟨henabled, ⟨hp, hrx, rfl⟩ | ⟨hp, hacc, p, hread, rfl⟩ | ⟨hp, rfl⟩⟩ := execRxEnd_next h
    · exact ⟨henabled, .of_eq .rfl hp (.endIgnored hp hrx)⟩
    · exact ⟨henabled, .of_eq .rfl hp (.frameCompleted hp hacc hread)⟩
    · exact ⟨henabled, .inl ⟨hp, _, _, rfl⟩⟩
  | rxData d =>
    obtain ⟨henabled, ⟨hp, hacc, hroom, rfl⟩ | ⟨hp, hdrop, rfl⟩ | ⟨hp, rfl⟩⟩ := execRxData_next h
    · exact ⟨henabled, .of_eq .rfl hp (.byteAppended hp hacc hroom)⟩
    · exact ⟨henabled, .of_eq .rfl hp (.dataIgnored hp hdrop)⟩
    · exact ⟨henabled, .inl ⟨hp, _, _, rfl⟩⟩
  | cmdTransmit bs =>
    have hi : IsCommand (.cmdTransmit bs) := .inl ⟨bs, rfl⟩
    obtain ⟨henabled, ⟨hp, hfit, rfl⟩ | ⟨hp, -, rfl⟩ | ⟨hp, rfl⟩⟩ := execCmdTransmit_next h
    · exact ⟨henabled, .of_eq .rfl hp (.started hi hp hfit)⟩
    · exact ⟨henabled, .of_eq .rfl hp (.rejected hi hp (by decide))⟩
    · exact ⟨henabled, .inl ⟨hp, _, _, rfl⟩⟩
  | cmdSendWeight v =>
    obtain ⟨henabled, ⟨hp, rfl⟩ | ⟨hp, rfl⟩⟩ := execCmdSendWeight_next h
    · exact ⟨henabled, .of_eq .rfl hp (performed_sendEncoded (.inr (.inl ⟨v, rfl⟩)) hp (sized_snd_length _ _))⟩
    · exact ⟨henabled, .inl ⟨hp, _, _, rfl⟩⟩
  | cmdSendStatus x =>
    obtain ⟨henabled, ⟨hp, rfl⟩ | ⟨hp, rfl⟩⟩ := execCmdSendStatus_next h
    · exact ⟨henabled, .of_eq .rfl hp (performed_sendEncoded (.inr (.inr ⟨x, rfl⟩)) hp (encStatus_snd_length _ _))⟩
    · exact ⟨henabled, .inl ⟨hp, _, _, rfl⟩⟩
  | txWriteOk =>
    obtain ⟨henabled, ⟨hp, hmore, b, hread, rfl⟩ | ⟨hp, hlast, rfl⟩ | ⟨hp, rfl⟩⟩ := execTxWriteOk_next h
    · exact ⟨henabled, .of_eq .rfl hp (.nextRequested hp hmore hread)⟩
    · exact ⟨henabled, .of_eq .rfl hp (.lastAccepted hp hlast)⟩
    · exact ⟨henabled, .inl ⟨hp, _, _, rfl⟩⟩
  | txWriteErr =>
    obtain ⟨henabled, ⟨hp, rfl⟩ | ⟨hp, rfl⟩⟩ := execTxWriteErr_next h
    · exact ⟨henabled, .of_eq .rfl hp (.writeFailed hp)⟩
    · exact ⟨henabled, .inl ⟨hp, _, _, rfl⟩⟩
  | txFlushDone =>
    obtain ⟨henabled, ⟨hp, rfl⟩ | ⟨hp, rfl⟩⟩ := execTxFlushDone_next h
    · exact ⟨henabled, .of_eq .rfl hp (.flushed hp)⟩
    · exact ⟨henabled, .inl ⟨hp, _, _, rfl⟩⟩
  | encodeWeight | encodeStatus | encodeBrain | cmdDecode | decodeWeight | decodeStatus | decodeBrain | decodeUnknown =>
    rw [exec_query rfl] at h
    obtain ⟨henabled, hnext⟩ := whenEnabled_next h
    cases hnext
    exact ⟨henabled, .inr ⟨id, .answered rfl⟩⟩

/-- What is performed records no fault. -/
theorem Performed.fault_eq {s t : State} {i : Instr} (h : Performed s i t) : t.fault = s.fault := by
  cases h <;> simp

/-- Settles O13: the fault table decides, and only its side writes the fault. -/
theorem faultTable : Obligations.FaultTable := by
  intro i s t henabled hexec
  obtain ⟨-, ⟨hfaults, c, n, rfl⟩ | ⟨hfaults, hperf⟩⟩ := exec_effect hexec
  · exact ⟨iff_of_true (by simp) hfaults, fun _ => rfl⟩
  · have hnone : t.fault = none := hperf.fault_eq.trans henabled
    exact ⟨iff_of_false (not_not_intro hnone) hfaults, fun hne => absurd hnone hne⟩

/-! ### The direction line (10_state.md section 3) -/

/-- What is performed outside the transceiver and RESET keeps the direction. -/
theorem Performed.dir_eq {s t : State} {i : Instr} (h : Performed s i t) (htx : ¬ IsTransceiver i) (hreset : i ≠ .reset) :
    t.dir = s.dir := by
  cases h with
  | reset => exact absurd rfl hreset
  | frameOpened | endIgnored | dataIgnored | frameCompleted | byteAppended | answered => rfl
  | started hi | rejected hi => obtain ⟨_, rfl⟩ | ⟨_, rfl⟩ | ⟨_, rfl⟩ := hi <;> exact absurd trivial htx
  | nextRequested | lastAccepted | writeFailed | flushed => exact absurd trivial htx

/-- Settles O35: neither a fault nor another event writes the direction. -/
theorem directionHasOneOwner : Obligations.DirectionHasOneOwner := by
  intro i s t hexec htx hreset
  obtain ⟨-, ⟨-, c, n, rfl⟩ | ⟨-, hperf⟩⟩ := exec_effect hexec
  · rfl
  · exact hperf.dir_eq htx hreset

/-- The direction after an event that is performed: only RESET and the flush release the line, only a command drives it. -/
theorem Performed.dir_cases {s t : State} {i : Instr} (h : Performed s i t) :
    t.dir = s.dir ∨ (t.dir = .listen ∧ (i = .txFlushDone ∨ i = .reset)) ∨ (t.dir = .drive ∧ IsCommand i) := by
  cases h with
  | reset => exact .inr (.inl ⟨by simp, .inr rfl⟩)
  | flushed => exact .inr (.inl ⟨rfl, .inl rfl⟩)
  | started hi => exact .inr (.inr ⟨by simp, hi⟩)
  | _ => exact .inl rfl

/-- Settles O36: the direction changes only in the two ways that the events performed have. -/
theorem lineChangesOnlyWhereStated : Obligations.LineChangesOnlyWhereStated := by
  intro i s t hexec
  have hcases : t.dir = s.dir ∨ (t.dir = .listen ∧ (i = .txFlushDone ∨ i = .reset)) ∨
      (t.dir = .drive ∧ IsCommand i) := by
    obtain ⟨-, ⟨-, c, n, rfl⟩ | ⟨-, hperf⟩⟩ := exec_effect hexec
    · exact .inl rfl
    · exact hperf.dir_cases
  obtain hdir | ⟨hdir, hi⟩ | ⟨hdir, hi⟩ := hcases
  · exact ⟨fun hs ht => by simp_all, fun hs ht => by simp_all⟩
  · exact ⟨fun _ _ => hi, fun _ ht => by simp_all⟩
  · exact ⟨fun _ ht => by simp_all, fun _ _ => hi⟩

/-! ### The two halves of the state (10_state.md section 2) -/

/-- What is performed outside the receiver and RESET keeps the receive side. -/
theorem Performed.receiver_eq {s t : State} {i : Instr} (h : Performed s i t) (hrx : ¬ IsReceive i) (hreset : i ≠ .reset) :
    t.rxState = s.rxState ∧ t.rxIdx = s.rxIdx ∧ t.rxBuf = s.rxBuf := by
  cases h with
  | reset => exact absurd rfl hreset
  | frameOpened | endIgnored | dataIgnored | frameCompleted | byteAppended => exact absurd trivial hrx
  | started => simp
  | rejected | nextRequested | lastAccepted | writeFailed | flushed | answered => exact ⟨rfl, rfl, rfl⟩

/-- What is performed outside the transceiver and RESET keeps the transmit side. -/
theorem Performed.transceiver_eq {s t : State} {i : Instr} (h : Performed s i t) (htx : ¬ IsTransceiver i)
    (hreset : i ≠ .reset) :
    t.txPhase = s.txPhase ∧ t.txLen = s.txLen ∧ t.txPos = s.txPos ∧ t.txErr = s.txErr ∧ t.txBuf = s.txBuf := by
  cases h with
  | reset => exact absurd rfl hreset
  | frameOpened | endIgnored | dataIgnored | frameCompleted | byteAppended | answered => exact ⟨rfl, rfl, rfl, rfl, rfl⟩
  | started hi | rejected hi => obtain ⟨_, rfl⟩ | ⟨_, rfl⟩ | ⟨_, rfl⟩ := hi <;> exact absurd trivial htx
  | nextRequested | lastAccepted | writeFailed | flushed => exact absurd trivial htx

/-- Settles O37: a fault writes neither half, and what is performed writes its own. -/
theorem receiverAndTransceiverAreSeparate : Obligations.ReceiverAndTransceiverAreSeparate := by
  intro i s t hexec
  obtain ⟨-, ⟨-, c, n, rfl⟩ | ⟨-, hperf⟩⟩ := exec_effect hexec
  · exact ⟨fun _ _ => ⟨rfl, rfl, rfl⟩, fun _ _ => ⟨rfl, rfl, rfl, rfl, rfl⟩⟩
  · exact ⟨hperf.receiver_eq, hperf.transceiver_eq⟩

/-! ### The output trace (20_memory.md section 5, 60_exceptions.md R260) -/

/-- An output of the receiver: a payload or its message. -/
def IsReception : OutEvent → Prop
  | .frameOut _ => True
  | .msgOut _ => True
  | _ => False

/-- What is performed appends to the trace: a completed payload with its message, or outputs that are no reception. -/
theorem Performed.trace_eq {s t : State} {i : Instr} (h : Performed s i t) :
    (i = .rxEnd ∧ s.rxState = .acc ∧ ∃ p, readPayload s s.rxIdx = .ok p ∧
        t.trace = s.trace ++ [.frameOut p, .msgOut (decodeMsg s.cfg p)]) ∨
      ∃ es, t.trace = s.trace ++ es ∧ ∀ e ∈ es, ¬ IsReception e := by
  cases h with
  | frameCompleted hp hacc hread => exact .inl ⟨rfl, hacc, _, hread, rfl⟩
  | reset =>
    refine .inr ⟨_, releaseLine_trace s, ?_⟩
    split_ifs <;> simp [IsReception]
  | frameOpened | endIgnored | dataIgnored | byteAppended => exact .inr ⟨[], (List.append_nil _).symm, by simp⟩
  | @started i bs hi hp hfit =>
    cases bs with
    | nil => exact .inr ⟨_, start_nil_trace s, by simp [IsReception]⟩
    | cons b bs => exact .inr ⟨_, start_cons_trace s bs b, by simp [IsReception]⟩
  | rejected | nextRequested | lastAccepted | writeFailed => exact .inr ⟨_, rfl, by simp [IsReception]⟩
  | flushed => exact .inr ⟨_, List.append_assoc _ _ _, by simp [IsReception]⟩
  | answered hanswer =>
    obtain ⟨⟨_, _, rfl, -⟩ | ⟨_, rfl⟩, -⟩ := queryAnswer_some hanswer
    · exact .inr ⟨_, rfl, by simp [IsReception]⟩
    · exact .inr ⟨_, rfl, by simp [IsReception]⟩

/-- What an event appends to the trace; a fault appends nothing. -/
theorem exec_trace {s t : State} {i : Instr} (h : exec i s = .next t) :
    (i = .rxEnd ∧ s.rxState = .acc ∧ ∃ p, readPayload s s.rxIdx = .ok p ∧
        t.trace = s.trace ++ [.frameOut p, .msgOut (decodeMsg s.cfg p)]) ∨
      ∃ es, t.trace = s.trace ++ es ∧ ∀ e ∈ es, ¬ IsReception e := by
  obtain ⟨-, ⟨-, c, n, rfl⟩ | ⟨-, hperf⟩⟩ := exec_effect h
  · exact .inr ⟨[], (List.append_nil _).symm, by simp⟩
  · exact hperf.trace_eq

/-- An output of the receiver comes from a completed frame, with nothing emitted beside its payload and message. -/
theorem reception_of_exec {s t : State} {i : Instr} {es : List OutEvent} {e : OutEvent} (h : exec i s = .next t)
    (htrace : t.trace = s.trace ++ es) (he : e ∈ es) (hrec : IsReception e) :
    i = .rxEnd ∧ s.rxState = .acc ∧ ∃ p, readPayload s s.rxIdx = .ok p ∧
      es = [.frameOut p, .msgOut (decodeMsg s.cfg p)] := by
  obtain ⟨hi, hacc, p, hread, heq⟩ | ⟨es', heq, hnone⟩ := exec_trace h
  · exact ⟨hi, hacc, p, hread, List.append_cancel_left (htrace.symm.trans heq)⟩
  · rw [List.append_cancel_left (htrace.symm.trans heq)] at he
    exact absurd hrec (hnone e he)

/-- Settles O54: an event appends to the trace, and a step without one leaves it. -/
theorem outputTraceOnlyGrows : Obligations.OutputTraceOnlyGrows := by
  intro s t hstep
  obtain ⟨-, rfl⟩ | ⟨r, -, rfl⟩ | ⟨i, rest, -, hexec⟩ := step_next hstep
  · exact ⟨[], (List.append_nil _).symm⟩
  · exact ⟨[], (List.append_nil _).symm⟩
  · obtain ⟨-, -, p, -, htrace⟩ | ⟨es, htrace, -⟩ := exec_trace hexec
    · exact ⟨_, htrace⟩
    · exact ⟨es, htrace⟩

/-- A payload read is as long as asked. -/
theorem readPayload_length {s : State} {n : Nat} {p : List Byte} (h : readPayload s n = .ok p) : p.length = n := by
  obtain ⟨-, rfl⟩ := readPayload_ok.1 h
  simp

/-- The payload of a state that meets the invariant holds no marker. -/
theorem readPayload_ordinary {s : State} {p : List Byte} (hinv : Inv s) (h : readPayload s s.rxIdx = .ok p) :
    ∀ b ∈ p, Ordinary b := by
  obtain ⟨-, rfl⟩ := readPayload_ok.1 h
  refine List.forall_mem_map.2 fun i hi => ?_
  obtain ⟨b, hread, hordinary⟩ := hinv.frame i (List.mem_range.1 hi)
  rwa [memByte_of_memRead hread]

/-- Settles O23: the payload is read from the frame in progress, which the invariant bounds and keeps clean. -/
theorem payloadsAreBoundedAndClean : Obligations.PayloadsAreBoundedAndClean := by
  rintro i s t p hinv hexec ⟨es, htrace, hmem⟩
  obtain ⟨hi, -, q, hread, rfl⟩ := reception_of_exec hexec htrace hmem trivial
  obtain rfl : p = q := by simpa using hmem
  refine ⟨hi, ?_, readPayload_ordinary hinv hread⟩
  rw [readPayload_length hread]
  exact hinv.rx.1

/-- A snapshot is the message of a payload tagged BRAIN only. -/
theorem firstField_of_decodeMsg_brain {c : Config} {p : List Byte} {w x y z : Rat}
    (h : decodeMsg c p = .brain w x y z) : firstField p = tagBrain := by
  rw [decodeMsg_by_firstField] at h
  split_ifs at h with hweight hstatus hbrain
  exact hbrain

/-- Settles O24: the message emitted is that of the payload emitted with it. -/
theorem snapshotsComeFromBrainFrames : Obligations.SnapshotsComeFromBrainFrames := by
  rintro i s t w x y z hexec ⟨es, htrace, hmem⟩
  obtain ⟨hi, hacc, p, -, rfl⟩ := reception_of_exec hexec htrace hmem trivial
  have hmsg : decodeMsg s.cfg p = .brain w x y z := by simpa [eq_comm] using hmem
  rw [hmsg] at htrace
  exact ⟨hi, hacc, p, htrace, firstField_of_decodeMsg_brain hmsg⟩

end Sys2Proof.Machine
end

section
/-! The invariant (10_state.md section 7): it holds at power-on, every event that some bytes encode keeps it, and under it every
event completes. -/

namespace Sys2Proof.Machine

/-- Settles O16: nothing is in progress and nothing is written. -/
theorem invariantAtPowerOn : Obligations.InvariantAtPowerOn where
  legal := by decide
  rx := by decide
  dir := by decide
  tx := by decide
  canonical := reset_buffers_wf
  bounds := by decide
  frame := fun _ hi => absurd hi (Nat.not_lt_zero _)
  sent := fun _ hi => absurd hi (Nat.not_lt_zero _)

/-! ### What keeps the invariant -/

/-- The invariant does not speak of the fault, the mark, the stream, the trace and the record of the line. -/
theorem Inv.withRecord {s : State} (h : Inv s) (f : Option FaultRecord) (r : Option RefuseReason) (inp : List Byte)
    (tr : List OutEvent) (handed line : List LineByte) (draws : Nat) :
    Inv { s with
      fault := f
      refused := r
      input := inp
      trace := tr
      handed := handed
      line := line
      draws := draws } :=
  ⟨h.legal, h.rx, h.dir, h.tx, h.canonical, h.bounds, h.frame, h.sent⟩

theorem Inv.faulted {s : State} (h : Inv s) (c : FaultCode) (n : Nat) : Inv (faulted s c n) := h.withRecord ..

theorem Inv.consume {s : State} (h : Inv s) (rest : List Byte) : Inv (consume s rest) := h.withRecord ..

theorem Inv.markRefused {s : State} (h : Inv s) (r : RefuseReason) : Inv (markRefused s r) := h.withRecord ..

theorem Inv.emit {s : State} (h : Inv s) (e : OutEvent) : Inv (emit s e) := h.withRecord ..

theorem Inv.reset {s : State} (h : Inv s) : Inv (clearBlock (cutLine (releaseLine s))) where
  legal := by simpa using h.legal
  rx := ⟨Nat.zero_le _, fun _ => rfl⟩
  dir := by simp [DirMatchesPhase]
  tx := ⟨le_rfl, Nat.zero_le _, nofun⟩
  canonical := by simpa [BuffersCanonical] using h.canonical
  bounds := by simpa [BuffersInBounds] using h.bounds
  frame := fun _ hi => absurd hi (Nat.not_lt_zero _)
  sent := fun _ hi => absurd hi (Nat.not_lt_zero _)

theorem Inv.openFrame {s : State} (h : Inv s) : Inv (openFrame s) :=
  { h with
    rx := ⟨Nat.zero_le _, fun _ => rfl⟩
    frame := fun _ hi => absurd hi (Nat.not_lt_zero _) }

theorem Inv.completeFrame {s : State} (h : Inv s) (p : List Byte) : Inv (completeFrame s p) :=
  { h with
    rx := ⟨Nat.zero_le _, fun _ => rfl⟩
    frame := fun _ hi => absurd hi (Nat.not_lt_zero _) }

/-- A byte appended lands below the reserved slot, and if it is ordinary the frame stays clean. -/
theorem Inv.appendByte {s : State} {d : Byte} (h : Inv s) (hacc : s.rxState = .acc) (hroom : s.rxIdx < s.cfg.rxCap - 1)
    (hd : Ordinary d) : Inv (appendByte s d) :=
  { h with
    rx := ⟨hroom, fun hidle => by rw [appendByte_rxState, hacc] at hidle; cases hidle⟩
    canonical := ⟨memWrite_wf _ _ h.canonical.1, h.canonical.2⟩
    bounds := ⟨fun c hc => by
      obtain hc | hc := memWrite_index hc
      · rwa [hc]
      · exact h.bounds.1 c hc, h.bounds.2⟩
    frame := fun i hi => by
      rw [appendByte_rxBuf, memRead_memWrite]
      split_ifs with heq
      · exact ⟨d, rfl, hd⟩
      · rw [appendByte_rxIdx] at hi
        exact h.frame i (by omega) }

/-- A transmission started is within the buffer and wholly written; a byte is owed unless it is empty. -/
theorem Inv.start {s : State} {bs : List Byte} (h : Inv s) (hfit : bs.length ≤ s.cfg.txCap) : Inv (start s bs) where
  legal := by simpa using h.legal
  rx := by simpa [RxBounded] using h.rx
  dir := by
    simp only [DirMatchesPhase, start_dir, start_txPhase, true_iff]
    split_ifs <;> simp
  tx := by
    simp only [TxBounded, start_txPos, start_txLen, start_cfg, start_txPhase]
    refine ⟨Nat.zero_le _, hfit, fun hwrite => ?_⟩
    split_ifs at hwrite with hnil
    exact List.length_pos_iff.2 hnil
  canonical := by
    simp only [BuffersCanonical, start_rxBuf, start_txBuf]
    exact ⟨h.canonical.1, memWriteList_wf 0 bs h.canonical.2⟩
  bounds := by
    simp only [BuffersInBounds, start_rxBuf, start_txBuf, start_cfg]
    refine ⟨h.bounds.1, fun c hc => ?_⟩
    obtain hc | hc := memWriteList_index hc
    · omega
    · exact h.bounds.2 c hc
  frame := by simpa [FrameWritten] using h.frame
  sent := fun i hi => by
    rw [start_txLen] at hi
    rw [memRead_start_txBuf, if_pos hi]
    exact ⟨bs[i], List.getElem?_eq_getElem hi⟩

/-- While a transmission is in flight the direction is DRIVE, in either phase. -/
theorem Inv.drive {s : State} (h : Inv s) (hbusy : s.txPhase ≠ .idle) : s.dir = .drive := h.dir.2 hbusy

theorem Inv.nextRequested {s : State} (h : Inv s) (hmore : s.txPos + 1 < s.txLen) (b : Byte) :
    Inv (requestByte (advance s) b) :=
  { h with tx := ⟨hmore.le, h.tx.2.1, fun _ => hmore⟩ }

theorem Inv.lastAccepted {s : State} (h : Inv s) (hwrite : s.txPhase = .write) : Inv (requestFlush (advance s)) :=
  { h with
    dir := iff_of_true (h.drive (by simp [hwrite])) nofun
    tx := ⟨h.tx.2.2 hwrite, h.tx.2.1, nofun⟩ }

theorem Inv.writeFailed {s : State} (h : Inv s) (hwrite : s.txPhase = .write) : Inv (requestFlush (noteError s)) :=
  { h with
    dir := iff_of_true (h.drive (by simp [hwrite])) nofun
    tx := ⟨h.tx.1, h.tx.2.1, nofun⟩ }

theorem Inv.flushed {s : State} (h : Inv s) (r : ResultCode) : Inv (Machine.emit (releaseTx s) (.result r)) :=
  { h with
    dir := iff_of_false nofun (not_not_intro rfl)
    tx := ⟨h.tx.1, h.tx.2.1, nofun⟩ }

/-- A well-formed received data byte is no marker. -/
theorem ordinary_of_wellFormed {d : Byte} (h : (Instr.rxData d).wellFormed = true) : Ordinary d := by
  simpa only [Instr.wellFormed, Bool.and_eq_true, decide_eq_true_eq] using h

/-- Every effect keeps the invariant; of the event only a data byte matters, which must be no marker. -/
theorem Performed.keeps_inv {s t : State} {i : Instr} (hperf : Performed s i t) (hwf : i.wellFormed = true) (h : Inv s) :
    Inv t := by
  cases hperf with
  | reset => exact h.reset
  | frameOpened => exact h.openFrame
  | endIgnored | dataIgnored => exact h
  | frameCompleted => exact h.completeFrame _
  | byteAppended _ hacc hroom => exact h.appendByte hacc hroom (ordinary_of_wellFormed hwf)
  | started _ _ hfit => exact h.start hfit
  | rejected => exact h.emit _
  | nextRequested _ hmore => exact h.nextRequested hmore _
  | lastAccepted hwrite => exact h.lastAccepted hwrite
  | writeFailed hwrite => exact h.writeFailed hwrite
  | flushed => exact h.flushed _
  | answered => exact h.emit _

/-- Every well-formed event keeps the invariant, whether it faults or is performed. -/
theorem exec_keeps_inv {s t : State} {i : Instr} (hwf : i.wellFormed = true) (h : Inv s) (hexec : exec i s = .next t) :
    Inv t := by
  obtain ⟨-, ⟨-, c, n, rfl⟩ | ⟨-, hperf⟩⟩ := exec_effect hexec
  · exact h.faulted c n
  · exact hperf.keeps_inv hwf h

/-- Settles O51: the event of a step is decoded, hence well-formed. -/
theorem stepKeepsTheInvariant : Obligations.StepKeepsTheInvariant := by
  intro s t h hstep
  obtain ⟨-, rfl⟩ | ⟨r, -, rfl⟩ | ⟨i, rest, hd, hexec⟩ := step_next hstep
  · exact h
  · exact h.markRefused r
  · obtain ⟨hwf, -, -⟩ := decodedEventsReencode s.input i rest hd
    exact exec_keeps_inv hwf (h.consume rest) hexec

/-! ### Completion -/

/-- An enabled event that its phase check guards completes if its body does. -/
theorem guarded_completes {s : State} {p : TxPhase} {c : FaultCode} {n : Nat} {o : Host.Outcome State Fault Refusal}
    (henabled : s.fault = none) (hbody : s.txPhase = p → ∃ t, o = .next t) :
    ∃ t, whenEnabled s (whenPhase s p c n o) = .next t := by
  rw [whenEnabled_none henabled]
  by_cases hphase : s.txPhase = p
  · rw [whenPhase_of_eq hphase]
    exact hbody hphase
  · exact ⟨_, whenPhase_of_ne hphase⟩

/-- The frame in progress lies within the receive buffer, so its payload is read. -/
theorem execRxEnd_completes {s : State} (henabled : s.fault = none) (hidx : s.rxIdx ≤ s.cfg.rxCap) :
    ∃ t, execRxEnd s = .next t := by
  refine guarded_completes henabled fun _ => ?_
  cases s.rxState with
  | idle => exact ⟨s, rfl⟩
  | acc => simp only [readPayload_of_le hidx]; exact ⟨_, rfl⟩

theorem execRxData_completes {s : State} (henabled : s.fault = none) (d : Byte) : ∃ t, execRxData d s = .next t := by
  refine guarded_completes henabled fun _ => ?_
  cases s.rxState with
  | idle => exact ⟨s, rfl⟩
  | acc => exact ⟨_, rfl⟩

/-- The transmission lies within the transmit buffer, so its next byte is read. -/
theorem execTxWriteOk_completes {s : State} (henabled : s.fault = none) (hlen : s.txLen ≤ s.cfg.txCap) :
    ∃ t, execTxWriteOk s = .next t := by
  refine guarded_completes henabled fun _ => ?_
  split_ifs with hmore
  · rw [readTx_of_lt (by omega)]
    exact ⟨_, rfl⟩
  · exact ⟨_, rfl⟩

/-- Settles O14: the two events that read a buffer read within it, and no other event reads one. -/
theorem everyInstructionCompletes : Obligations.EveryInstructionCompletes := by
  intro i s h henabled
  cases i with
  | reset => exact ⟨_, whenEnabled_none henabled⟩
  | rxEnd => exact execRxEnd_completes henabled (h.rx.1.trans (Nat.sub_le _ _))
  | rxData d => exact execRxData_completes henabled d
  | txWriteOk => exact execTxWriteOk_completes henabled h.tx.2.1
  | rxStart | cmdTransmit | cmdSendWeight | cmdSendStatus | txWriteErr | txFlushDone =>
    exact guarded_completes henabled fun _ => ⟨_, rfl⟩
  | encodeWeight | encodeStatus | encodeBrain | cmdDecode | decodeWeight | decodeStatus | decodeBrain | decodeUnknown =>
    exact ⟨_, whenEnabled_none henabled⟩

/-- Settles O52: no input, a refused event, or an event, which completes. -/
theorem reachableStepsAnswer : Obligations.ReachableStepsAnswer := by
  intro s h henabled hrefused
  obtain ⟨hrefuse, -, hidle⟩ := stepWithoutAnEventToPerform
  by_cases hempty : s.input = []
  · exact ⟨_, hidle s hrefused henabled hempty⟩
  · cases hd : decodeEvent s.input with
    | error r => exact ⟨_, hrefuse s r hrefused henabled hempty hd⟩
    | ok x =>
      obtain ⟨i, rest⟩ := x
      rw [stepPerformsTheNextEvent s i rest hrefused hd]
      exact everyInstructionCompletes i _ (h.consume rest) henabled

end Sys2Proof.Machine
end

section
/-! Receiving frames (42_receiver.md sections 2 and 3): each receive step outside a transmission, and the steps of a whole frame. -/

namespace Sys2Proof.Machine

/-! ### One byte -/

theorem exec_rxStart {s : State} (henabled : s.fault = none) (hidle : s.txPhase = .idle) :
    exec .rxStart s = .next (openFrame s) :=
  whenListening_of_idle henabled hidle

/-- The end marker is ignored in IDLE (decision D6). -/
theorem exec_rxEnd_of_idle {s : State} (henabled : s.fault = none) (hidle : s.txPhase = .idle) (hrx : s.rxState = .idle) :
    exec .rxEnd s = .next s := by
  show execRxEnd s = _
  rw [execRxEnd, whenListening_of_idle henabled hidle, hrx]

/-- The end marker completes a frame whose bytes lie within the buffer. -/
theorem exec_rxEnd_of_acc {s : State} (henabled : s.fault = none) (hidle : s.txPhase = .idle) (hrx : s.rxState = .acc)
    (hidx : s.rxIdx ≤ s.cfg.rxCap) :
    exec .rxEnd s = .next (completeFrame s ((List.range s.rxIdx).map (memByte .rx s.rxBuf))) := by
  show execRxEnd s = _
  rw [execRxEnd, whenListening_of_idle henabled hidle, hrx]
  simp only [readPayload_of_le hidx]

/-- A data byte is ignored in IDLE. -/
theorem exec_rxData_of_idle {s : State} (henabled : s.fault = none) (hidle : s.txPhase = .idle) (hrx : s.rxState = .idle)
    (d : Byte) : exec (.rxData d) s = .next s := by
  show execRxData d s = _
  rw [execRxData, whenListening_of_idle henabled hidle, hrx]

/-- A data byte of a frame is appended while there is room, and else discarded (decision D7). -/
theorem exec_rxData_of_acc {s : State} (henabled : s.fault = none) (hidle : s.txPhase = .idle) (hrx : s.rxState = .acc)
    (d : Byte) : exec (.rxData d) s = .next (if s.rxIdx < s.cfg.rxCap - 1 then appendByte s d else s) := by
  show execRxData d s = _
  rw [execRxData, whenListening_of_idle henabled hidle, hrx]

/-- Settles O20: the frame completes in ACC, the marker is ignored in IDLE, and it faults during a transmission. -/
theorem rxEndCompletesAFrame : Obligations.RxEndCompletesAFrame := by
  rintro s p henabled rfl
  refine ⟨fun hidle hrx => ?_, fun hidle hrx hidx => ?_, fun hbusy => ?_⟩
  · exact exec_rxEnd_of_idle henabled hidle hrx
  · exact exec_rxEnd_of_acc henabled hidle hrx hidx
  · exact whenListening_of_not_idle henabled hbusy

/-- Settles O21: the byte is appended, discarded, ignored, or faults. -/
theorem rxDataStoresOrDrops : Obligations.RxDataStoresOrDrops := by
  intro s d henabled
  refine ⟨fun hidle hrx hroom => ?_, fun hidle hrx hfull => ?_, fun hidle hrx => ?_, fun hbusy => ?_⟩
  · refine ⟨appendByte s d, ?_, fun i => memRead_memWrite _ _ i _, rfl⟩
    rw [exec_rxData_of_acc henabled hidle hrx, if_pos hroom]
  · rw [exec_rxData_of_acc henabled hidle hrx, if_neg (by omega)]
  · exact exec_rxData_of_idle henabled hidle hrx d
  · exact whenListening_of_not_idle henabled hbusy

/-! ### A whole frame -/

/-- A receiving state that has taken `bs`: the bytes for which there was room are in the buffer. -/
def fed (s : State) (bs : List Byte) : State :=
  { s with
    rxBuf := memWriteList s.rxBuf s.rxIdx (bs.take (s.cfg.rxCap - 1 - s.rxIdx))
    rxIdx := s.rxIdx + (bs.take (s.cfg.rxCap - 1 - s.rxIdx)).length }

theorem fed_nil (s : State) : fed s [] = s := by simp [fed, memWriteList]

/-- While there is room a byte fed is a byte appended. -/
theorem fed_cons_of_lt {s : State} (h : s.rxIdx < s.cfg.rxCap - 1) (b : Byte) (bs : List Byte) :
    fed s (b :: bs) = fed (appendByte s b) bs := by
  obtain ⟨k, hk⟩ : ∃ k, s.cfg.rxCap - 1 - s.rxIdx = k + 1 := ⟨s.cfg.rxCap - 1 - s.rxIdx - 1, by omega⟩
  have hk' : s.cfg.rxCap - 1 - (s.rxIdx + 1) = k := by omega
  simp only [fed, appendByte, hk, hk', List.take_succ_cons, memWriteList, List.length_cons]
  congr 1
  omega

/-- Without room nothing fed changes the state. -/
theorem fed_of_le {s : State} (h : s.cfg.rxCap - 1 ≤ s.rxIdx) (bs : List Byte) : fed s bs = s := by
  simp [fed, Nat.sub_eq_zero_of_le h, memWriteList]

/-- Data bytes are fed one by one. -/
theorem runEvents_rxData {s : State} {bs : List Byte} (henabled : s.fault = none) (hidle : s.txPhase = .idle)
    (hrx : s.rxState = .acc) : runEvents (bs.map .rxData) s = .next (fed s bs) := by
  induction bs generalizing s with
  | nil => rw [fed_nil]; rfl
  | cons b bs ih =>
    rw [List.map_cons, runEvents, exec_rxData_of_acc henabled hidle hrx]
    by_cases hroom : s.rxIdx < s.cfg.rxCap - 1
    · rw [if_pos hroom, fed_cons_of_lt hroom]
      exact ih henabled hidle hrx
    · rw [if_neg hroom]
      refine (ih henabled hidle hrx).trans ?_
      rw [fed_of_le (not_lt.1 hroom), fed_of_le (not_lt.1 hroom)]

/-- The bytes of a space from 0 on after a run was written there are the run. -/
theorem range_map_memByte_memWriteList (sp : Space) (m : Memory) (bs : List Byte) :
    (List.range bs.length).map (memByte sp (memWriteList m 0 bs)) = bs := by
  refine List.ext_getElem (by simp) fun i _ hi => ?_
  rw [List.getElem_map, List.getElem_range]
  refine memByte_of_memRead ?_
  rw [memRead_memWriteList, if_pos ⟨Nat.zero_le i, by omega⟩]
  exact List.getElem?_eq_getElem hi

/-- A frame's events: the two markers and the data bytes between them. -/
theorem expandAsm_rxs_frame {bs : List Byte} (h : ∀ b ∈ bs, Ordinary b) :
    expandAsm (.rxs (startMarker :: bs ++ [endMarker])) = .rxStart :: (bs.map .rxData ++ [.rxEnd]) := by
  have hdata : bs.map rxByte = bs.map .rxData :=
    List.map_congr_left fun b hb => rxByte_of_ordinary (h b hb).1 (h b hb).2
  simp only [expandAsm, List.cons_append, List.map_cons, List.map_append, List.map_nil, hdata]
  rfl

/-- The state after a frame of the bytes `bs`: its payload and message are emitted, and the payload stays in the buffer. -/
def received (s : State) (bs : List Byte) : State :=
  completeFrame (fed (openFrame s) bs) (bs.take (s.cfg.rxCap - 1))

/-- A frame of ordinary bytes is received from any receiver state outside a transmission. -/
theorem runEvents_rxs_frame {s : State} {bs : List Byte} (henabled : s.fault = none) (hidle : s.txPhase = .idle)
    (h : ∀ b ∈ bs, Ordinary b) :
    runEvents (expandAsm (.rxs (startMarker :: bs ++ [endMarker]))) s = .next (received s bs) := by
  have hdata : runEvents (bs.map .rxData) (openFrame s) = .next (fed (openFrame s) bs) :=
    runEvents_rxData henabled hidle rfl
  have hidx : (fed (openFrame s) bs).rxIdx = (bs.take (s.cfg.rxCap - 1)).length := Nat.zero_add _
  have hend := exec_rxEnd_of_acc (s := fed (openFrame s) bs) henabled hidle rfl (by
    rw [hidx, List.length_take]
    show _ ≤ s.cfg.rxCap
    omega)
  have hpayload : (List.range (fed (openFrame s) bs).rxIdx).map (memByte .rx (fed (openFrame s) bs).rxBuf) =
      bs.take (s.cfg.rxCap - 1) := by
    rw [hidx]
    exact range_map_memByte_memWriteList _ _ _
  rw [expandAsm_rxs_frame h, runEvents, exec_rxStart henabled hidle]
  show runEvents (bs.map .rxData ++ [.rxEnd]) (openFrame s) = _
  rw [runEvents_append hdata, runEvents, hend, hpayload]
  rfl

/-- The buffer after a frame holds its payload at the front and is otherwise as before. -/
theorem memRead_received (s : State) (bs : List Byte) (i : Nat) :
    memRead (received s bs).rxBuf i =
      if i < min bs.length (s.cfg.rxCap - 1) then bs[i]? else memRead s.rxBuf i := by
  show memRead (memWriteList s.rxBuf 0 (bs.take (s.cfg.rxCap - 1))) i = _
  rw [memRead_memWriteList, List.length_take, Nat.min_comm]
  by_cases hi : i < min bs.length (s.cfg.rxCap - 1)
  · rw [if_pos hi, if_pos ⟨Nat.zero_le i, by omega⟩, List.getElem?_take, if_pos (by omega), Nat.sub_zero]
  · rw [if_neg hi, if_neg (by omega)]

/-- Settles O22: the frame is received as a whole, whatever the receiver was doing. -/
theorem frameIsReceivedByteByByte : Obligations.FrameIsReceivedByteByByte :=
  fun s bs henabled hidle h =>
    ⟨received s bs, runEvents_rxs_frame henabled hidle h, memRead_received s bs, rfl⟩

/-- Settles O47: the frame's body fits the buffer, so it is the payload, and its message is the text. -/
theorem encodedStatusIsReceived : Obligations.EncodedStatusIsReceived := by
  intro s c x f henabled hidle henc hroom
  obtain ⟨hvalid, -, rfl⟩ := encStatus_ok.1 henc
  have hordinary := ordinary_joinFields (validText_statusFields hvalid)
  have hlen : (joinFields [tagStatus, x]).length ≤ s.cfg.rxCap - 1 := by
    simp only [frame, List.length_append, List.length_cons, List.length_nil] at hroom
    omega
  refine ⟨_, runEvents_rxs_frame henabled hidle hordinary, ?_, rfl⟩
  rw [received, completeFrame_trace, List.take_of_length_le hlen, ← frameBody_frame]
  show _ = s.trace ++ _
  rw [← decodeMsg_statusFrame s.cfg hvalid]
  rfl

end Sys2Proof.Machine
end

section
/-! The transceiver's commands and the transport's responses one by one (43_transceiver.md sections 2 and 3), and RESET
(70_reset_and_hazards.md section 1). -/

namespace Sys2Proof.Machine

/-- A command for bytes that fit starts their transmission (R211). -/
theorem exec_cmdTransmit_of_le {s : State} {bs : List Byte} (henabled : s.fault = none) (hidle : s.txPhase = .idle)
    (hfit : bs.length ≤ s.cfg.txCap) : exec (.cmdTransmit bs) s = .next (start s bs) := by
  show execCmdTransmit bs s = _
  rw [execCmdTransmit, whenNotSending_of_idle henabled hidle, if_neg (by omega)]

/-- A command for bytes that do not fit reports them, with no other effect (decision D20). -/
theorem exec_cmdTransmit_of_lt {s : State} {bs : List Byte} (henabled : s.fault = none) (hidle : s.txPhase = .idle)
    (hover : s.cfg.txCap < bs.length) : exec (.cmdTransmit bs) s = .next (emit s (.result .errOversize)) := by
  show execCmdTransmit bs s = _
  rw [execCmdTransmit, whenNotSending_of_idle henabled hidle, if_pos (by omega)]

/-- Settles O25: the bytes fit, do not fit, or come during a transmission. -/
theorem transmitStartsOrRefuses : Obligations.TransmitStartsOrRefuses := by
  intro s bs henabled
  refine ⟨fun hidle hfit => ?_, fun hidle hover => ?_, fun hbusy => ?_⟩
  · exact ⟨_, exec_cmdTransmit_of_le henabled hidle hfit, started_start s bs⟩
  · exact exec_cmdTransmit_of_lt henabled hidle hover
  · exact whenNotSending_of_not_idle henabled hbusy

/-- CMD_SEND_STATUS outside a transmission sends what the encoder answers (R213). -/
theorem exec_cmdSendStatus_of_idle {s : State} (henabled : s.fault = none) (hidle : s.txPhase = .idle) (x : List Byte) :
    exec (.cmdSendStatus x) s = .next (sendEncoded s (encStatus s.cfg x)) :=
  whenNotSending_of_idle henabled hidle

/-- The encoder's answer for a text that passes the check is its frame after the length check (R106). -/
theorem encStatus_of_valid {c : Config} {x : List Byte} (h : validText x = true) :
    encStatus c x = sized c (frame [tagStatus, x]) := if_pos h

/-- Settles O27: the text check, then the length check, then the transmission of the frame. -/
theorem sendStatusTransmitsTheFrame : Obligations.SendStatusTransmitsTheFrame := by
  intro s x f henabled hf
  have hframe : f = frame [tagStatus, x] := by rw [frame_pair, hf]
  refine ⟨fun hidle hmarks => ?_, fun hidle hclean hover => ?_, fun hidle hclean hfit => ?_, fun hbusy => ?_⟩
  · rw [exec_cmdSendStatus_of_idle henabled hidle, encStatus, if_neg (not_validText_iff.2 hmarks)]
    rfl
  · rw [exec_cmdSendStatus_of_idle henabled hidle, encStatus_of_valid (validText_iff.2 hclean), ← hframe,
      sendEncoded_sized_of_lt hover]
    rfl
  · rw [exec_cmdSendStatus_of_idle henabled hidle, encStatus_of_valid (validText_iff.2 hclean), ← hframe,
      sendEncoded_sized_of_le hfit]
    exact ⟨_, rfl, started_start s f⟩
  · exact whenNotSending_of_not_idle henabled hbusy

theorem exec_txWriteErr_of_write {s : State} (henabled : s.fault = none) (hwrite : s.txPhase = .write) :
    exec .txWriteErr s = .next (requestFlush (noteError s)) :=
  whenAwaiting_of_eq henabled hwrite

theorem exec_txFlushDone_of_flush {s : State} (henabled : s.fault = none) (hflush : s.txPhase = .flush) :
    exec .txFlushDone s = .next (emit (releaseTx s) (.result (txResult s))) :=
  whenAwaiting_of_eq henabled hflush

/-- Settles O29: the error is noted and the flush requested, or the phase is recorded. -/
theorem writeErrFlushesAtOnce : Obligations.WriteErrFlushesAtOnce := by
  intro s henabled
  refine ⟨fun hwrite => ?_, fun hphase => ?_⟩
  · exact ⟨_, _, exec_txWriteErr_of_write henabled hwrite⟩
  · exact whenAwaiting_of_ne henabled hphase

/-- A state after the flush, field by field (R216). -/
theorem emit_releaseTx (s : State) :
    emit (releaseTx s) (.result (txResult s)) = { s with
      dir := .listen
      txPhase := .idle
      trace := s.trace ++ [.dir .listen, .result (if s.txErr then .errWrite else .ok)]
      handed := []
      line := s.line ++ s.handed } := by
  simp [emit, releaseTx, setDir, settleLine, txResult]

/-- Settles O30: the line is released and the result emitted, or the phase is recorded. -/
theorem flushDoneReleasesTheLine : Obligations.FlushDoneReleasesTheLine := by
  intro s henabled
  refine ⟨fun hflush => ?_, fun hphase => ?_⟩
  · rw [exec_txFlushDone_of_flush henabled hflush, emit_releaseTx]
    exact ⟨_, rfl⟩
  · exact whenAwaiting_of_ne henabled hphase

/-! ### RESET and power-on -/

/-- Settles O15: each field at power-on, and the two status words and the level of `de` computed from them. -/
theorem powerOnState : Obligations.PowerOnState := by
  refine ⟨rfl, rfl, rfl, rfl, rfl, rfl, rfl, rfl, rfl, ?_, ?_, rfl⟩ <;> decide

theorem exec_reset {s : State} (henabled : s.fault = none) :
    exec .reset s = .next (clearBlock (cutLine (releaseLine s))) :=
  whenEnabled_none henabled

/-- A state after RESET, field by field (R280). -/
theorem clearBlock_cutLine_releaseLine (s : State) :
    clearBlock (cutLine (releaseLine s)) = { s with
      rxState := .idle
      rxIdx := 0
      dir := .listen
      txPhase := .idle
      txLen := 0
      txPos := 0
      txErr := false
      trace := s.trace ++ (if s.dir = .drive then [.dir .listen] else [])
      handed := []
      line := s.line ++ drawAll s.draws s.handed
      draws := s.draws + s.handed.length } := by
  simp [clearBlock, cutLine]

/-- Settles O17: RESET writes its fields, and an empty record of handed bytes leaves the line's record. -/
theorem resetReturnsToPowerOn : Obligations.ResetReturnsToPowerOn := by
  intro s henabled
  refine ⟨s.line ++ drawAll s.draws s.handed, s.draws + s.handed.length, fun hhanded => ?_, ?_⟩
  · simp [hhanded, drawAll]
  · rw [exec_reset henabled, clearBlock_cutLine_releaseLine]

/-- Settles O18: after RESET nothing is in flight, so each response finds the phase TX_IDLE and faults. -/
theorem lateResponsesAfterResetFault : Obligations.LateResponsesAfterResetFault := by
  intro s t hexec
  obtain ⟨henabled, rfl⟩ := execReset_next hexec
  have henabled' : (clearBlock (cutLine (releaseLine s))).fault = none := by simp [henabled]
  refine ⟨?_, ?_, ?_⟩ <;> exact whenAwaiting_of_ne henabled' nofun

/-! ### What the line carried (43_transceiver.md section 4) -/

theorem lineCarried_sent (b : Byte) : lineCarried [⟨b, .sent⟩] = [b] := rfl

theorem lineCarried_draw (b : Byte) (k : Nat) :
    lineCarried [⟨b, .draw k⟩] = if Config.lineDraw k then [b] else [] := rfl

/-- The draws are numbered in order. -/
theorem fate_of_drawAll {k j : Nat} {xs : List LineByte} {x : LineByte} (h : (drawAll k xs)[j]? = some x) :
    x.fate = .draw (k + j) := by
  induction xs generalizing k j with
  | nil => simp [drawAll] at h
  | cons y ys ih =>
    cases j with
    | zero =>
      obtain rfl : ⟨y.byte, .draw k⟩ = x := by simpa [drawAll] using h
      rfl
    | succ j =>
      rw [ih (by simpa [drawAll] using h)]
      congr 1
      omega

/-- Settles O33: the record is read byte by byte, and RESET draws every byte handed over. -/
theorem drawsDecideWhatTheLineCarried : Obligations.DrawsDecideWhatTheLineCarried := by
  refine ⟨fun xs b k => ?_, fun s t hexec => ?_⟩
  · rw [lineCarried_append, lineCarried_append, lineCarried_sent, lineCarried_draw]
    exact ⟨rfl, rfl⟩
  · obtain ⟨-, rfl⟩ := execReset_next hexec
    rw [clearBlock_cutLine_releaseLine]
    exact ⟨drawAll s.draws s.handed, rfl, drawAll_bytes _ _, rfl, fun _ _ h => fate_of_drawAll h⟩

/-! ### The status view (10_state.md sections 3 and 5) -/

/-- The fields of a word that is laid out as STATUS is, from bit 0 upwards. -/
theorem extractLsb'_status_layout (a : BitVec 16) (b : BitVec 11) (c : BitVec 1) (d : BitVec 2) (e f : BitVec 1) :
    (a ++ b ++ c ++ d ++ e ++ f).extractLsb' 0 1 = f ∧ (a ++ b ++ c ++ d ++ e ++ f).extractLsb' 1 1 = e ∧
      (a ++ b ++ c ++ d ++ e ++ f).extractLsb' 2 2 = d ∧ (a ++ b ++ c ++ d ++ e ++ f).extractLsb' 4 1 = c ∧
      (a ++ b ++ c ++ d ++ e ++ f).extractLsb' 5 11 = b ∧ (a ++ b ++ c ++ d ++ e ++ f).extractLsb' 16 16 = a := by
  simp (disch := omega) only [BitVec.extractLsb'_append_eq_of_add_le, BitVec.extractLsb'_append_eq_of_le]
  simp

/-- The fields of a word that is laid out as TXSTAT is. -/
theorem extractLsb'_txStat_layout (a b : BitVec 16) :
    (a ++ b).extractLsb' 0 16 = b ∧ (a ++ b).extractLsb' 16 16 = a := by
  simp (disch := omega) only [BitVec.extractLsb'_append_eq_of_add_le, BitVec.extractLsb'_append_eq_of_le]
  simp

/-- The phase code 3 is never shown. -/
theorem ofNat_txPhaseCode_ne_three (p : TxPhase) : BitVec.ofNat 2 (txPhaseCode p) ≠ 3 := by cases p <;> decide

/-- The level of `de` is active exactly in DRIVE (R25). -/
theorem deLevel_iff (s : State) : deLevel s = true ↔ (s.cfg.deActiveHigh = true ↔ s.dir = .drive) := by
  unfold deLevel
  cases s.cfg.deActiveHigh <;> cases s.dir <;> simp

/-- Settles O56: each field is the part of its word's layout at its bits. -/
theorem statusViewFields : Obligations.StatusViewFields := by
  intro s
  obtain ⟨hrxs, hdir, hphase, herr, hzero, hidx⟩ := extractLsb'_status_layout (BitVec.ofNat 16 s.rxIdx) 0
    (BitVec.ofBool s.txErr) (BitVec.ofNat 2 (txPhaseCode s.txPhase)) (BitVec.ofNat 1 (dirCode s.dir))
    (BitVec.ofNat 1 (rxStateCode s.rxState))
  obtain ⟨hlen, hpos⟩ := extractLsb'_txStat_layout (BitVec.ofNat 16 s.txPos) (BitVec.ofNat 16 s.txLen)
  exact ⟨hrxs, hdir, hphase, hphase.trans_ne (ofNat_txPhaseCode_ne_three _), herr, hzero, hidx, hlen, hpos,
    deLevel_iff s⟩

end Sys2Proof.Machine
end

section
/-! Whole transmissions (43_transceiver.md section 4, 70_reset_and_hazards.md section 5): the bytes the transport accepts one after
another, and the two ways in which a transmission ends. -/

namespace Sys2Proof.Machine

/-- A transmission after the transport accepted `j` bytes of it, each answered with a request for the next. -/
def acceptMany (s : State) : Nat → State
  | 0 => s
  | j + 1 => requestByte (advance (acceptMany s j)) (memByte .tx s.txBuf (s.txPos + j + 1))

/-- Accepted bytes move the position; else they change the trace and the record of the bytes handed over only. -/
theorem acceptMany_eq (s : State) (j : Nat) :
    acceptMany s j = { s with
      txPos := s.txPos + j
      trace := (acceptMany s j).trace
      handed := (acceptMany s j).handed } := by
  induction j with
  | zero => rfl
  | succ j ih =>
    rw [acceptMany, ih]
    rfl

section
variable (s : State) (j : Nat)
@[simp] theorem acceptMany_cfg : (acceptMany s j).cfg = s.cfg := by rw [acceptMany_eq]
@[simp] theorem acceptMany_rxState : (acceptMany s j).rxState = s.rxState := by rw [acceptMany_eq]
@[simp] theorem acceptMany_rxIdx : (acceptMany s j).rxIdx = s.rxIdx := by rw [acceptMany_eq]
@[simp] theorem acceptMany_rxBuf : (acceptMany s j).rxBuf = s.rxBuf := by rw [acceptMany_eq]
@[simp] theorem acceptMany_txPhase : (acceptMany s j).txPhase = s.txPhase := by rw [acceptMany_eq]
@[simp] theorem acceptMany_txLen : (acceptMany s j).txLen = s.txLen := by rw [acceptMany_eq]
@[simp] theorem acceptMany_txPos : (acceptMany s j).txPos = s.txPos + j := by rw [acceptMany_eq]
@[simp] theorem acceptMany_txErr : (acceptMany s j).txErr = s.txErr := by rw [acceptMany_eq]
@[simp] theorem acceptMany_txBuf : (acceptMany s j).txBuf = s.txBuf := by rw [acceptMany_eq]
@[simp] theorem acceptMany_fault : (acceptMany s j).fault = s.fault := by rw [acceptMany_eq]
@[simp] theorem acceptMany_refused : (acceptMany s j).refused = s.refused := by rw [acceptMany_eq]
@[simp] theorem acceptMany_input : (acceptMany s j).input = s.input := by rw [acceptMany_eq]
@[simp] theorem acceptMany_line : (acceptMany s j).line = s.line := by rw [acceptMany_eq]
@[simp] theorem acceptMany_draws : (acceptMany s j).draws = s.draws := by rw [acceptMany_eq]
end

/-- Accepted bytes only add to the trace. -/
theorem acceptMany_trace (s : State) (j : Nat) : ∃ es, (acceptMany s j).trace = s.trace ++ es := by
  induction j with
  | zero => exact ⟨[], (List.append_nil _).symm⟩
  | succ j ih =>
    obtain ⟨es, hes⟩ := ih
    exact ⟨es ++ [_], by rw [acceptMany, requestByte_trace, advance_trace, hes, List.append_assoc]⟩

/-- The state after the flush of a transmission (R216). -/
abbrev released (s : State) : State := emit (releaseTx s) (.result (txResult s))

section
variable {s : State}

/-- While bytes are left behind them, acceptances are answered with requests. -/
theorem runEvents_txWriteOk (henabled : s.fault = none) (hwrite : s.txPhase = .write) (hcap : s.txLen ≤ s.cfg.txCap)
    {j : Nat} (hj : s.txPos + j < s.txLen) : runEvents (List.replicate j .txWriteOk) s = .next (acceptMany s j) := by
  induction j with
  | zero => rfl
  | succ j ih =>
    have hstep : exec .txWriteOk (acceptMany s j) = .next (acceptMany s (j + 1)) := by
      have hnext := execTxWriteOk_of_lt (s := acceptMany s j) (by simp [henabled]) (by simp [hwrite])
        (by simp only [acceptMany_txPos, acceptMany_txLen]; omega) (by simp only [acceptMany_txPos, acceptMany_cfg]; omega)
      rwa [acceptMany_txBuf, acceptMany_txPos] at hnext
    rw [List.replicate_succ', runEvents_append (ih (by omega)), runEvents, hstep]
    rfl

/-- With all bytes owed but one accepted, the last acceptance and the flush end the transmission. -/
theorem runEvents_accepted (henabled : s.fault = none) (hwrite : s.txPhase = .write) (hcap : s.txLen ≤ s.cfg.txCap)
    {j : Nat} (hj : s.txPos + (j + 1) = s.txLen) :
    runEvents (List.replicate (j + 1) .txWriteOk ++ [.txFlushDone]) s =
      .next (released (requestFlush (advance (acceptMany s j)))) := by
  have hlast : exec .txWriteOk (acceptMany s j) = .next (requestFlush (advance (acceptMany s j))) :=
    execTxWriteOk_of_le (by simp [henabled]) (by simp [hwrite])
      (by simp only [acceptMany_txPos, acceptMany_txLen]; omega)
  have hflush := exec_txFlushDone_of_flush (s := requestFlush (advance (acceptMany s j))) (by simp [henabled]) rfl
  rw [List.replicate_succ', List.append_assoc, runEvents_append (runEvents_txWriteOk henabled hwrite hcap (by omega))]
  simp only [List.singleton_append, runEvents, hlast, hflush]

/-- With a byte failed after `j` accepted ones, the flush ends the transmission at once. -/
theorem runEvents_failed (henabled : s.fault = none) (hwrite : s.txPhase = .write) (hcap : s.txLen ≤ s.cfg.txCap)
    {j : Nat} (hj : s.txPos + j < s.txLen) :
    runEvents (List.replicate j .txWriteOk ++ [.txWriteErr, .txFlushDone]) s =
      .next (released (requestFlush (noteError (acceptMany s j)))) := by
  have herr := exec_txWriteErr_of_write (s := acceptMany s j) (by simp [henabled]) (by simp [hwrite])
  have hflush := exec_txFlushDone_of_flush (s := requestFlush (noteError (acceptMany s j))) (by simp [henabled]) rfl
  rw [runEvents_append (runEvents_txWriteOk henabled hwrite hcap hj)]
  simp only [runEvents, herr, hflush]

end

/-- Settles O34: the two ends of a transmission from the byte it has come to, and the flush alone. -/
theorem answeredTransmissionsEnd : Obligations.AnsweredTransmissionsEnd := by
  intro s h henabled
  refine ⟨fun hwrite => ?_, fun hwrite j hj => ?_, fun hflush => ?_⟩
  · have hpos := h.tx.2.2 hwrite
    obtain ⟨j, hj⟩ : ∃ j, s.txLen - s.txPos = j + 1 := ⟨s.txLen - s.txPos - 1, by omega⟩
    rw [hj]
    refine ⟨_, runEvents_accepted henabled hwrite h.tx.2.1 (by omega), rfl, rfl, ?_, by simp [henabled]⟩
    simp only [emit_txPos, releaseTx_txPos, requestFlush_txPos, advance_txPos, acceptMany_txPos]
    omega
  · obtain ⟨es, hes⟩ := acceptMany_trace s j
    refine ⟨_, runEvents_failed henabled hwrite h.tx.2.1 (by omega), rfl, rfl, by simp, by simp [henabled], es, ?_⟩
    simp [hes, txResult]
  · have hexec := exec_txFlushDone_of_flush henabled hflush
    exact ⟨released s, by simp only [runEvents, hexec], rfl, rfl, henabled⟩

/-! ### From the command on -/

/-- The transmit buffer after START holds the bytes of the transmission. -/
theorem memByte_start {s : State} {bs : List Byte} {i : Nat} (h : i < bs.length) :
    memByte .tx (start s bs).txBuf i = bs[i] := by
  refine memByte_of_memRead ?_
  rw [memRead_start_txBuf, if_pos h, List.getElem?_eq_getElem h]

theorem start_trace_of_pos {s : State} {bs : List Byte} (h : 0 < bs.length) :
    (start s bs).trace = s.trace ++ [.dir .drive, .txReq bs[0]] := by
  cases bs with
  | nil => cases h
  | cons b bs => exact start_cons_trace s bs b

theorem start_handed_of_pos {s : State} {bs : List Byte} (h : 0 < bs.length) :
    (start s bs).handed = s.handed ++ [⟨bs[0], .asked⟩] := by
  cases bs with
  | nil => cases h
  | cons b bs => exact start_cons_handed s bs b

/-- `j` bytes accepted: the first `j + 1` were requested, in order. -/
theorem acceptMany_start_trace (s : State) {bs : List Byte} {j : Nat} (hj : j < bs.length) :
    (acceptMany (start s bs) j).trace = s.trace ++ .dir .drive :: (bs.take (j + 1)).map .txReq := by
  induction j with
  | zero =>
    rw [acceptMany, start_trace_of_pos hj, ← List.take_append_getElem hj]
    rfl
  | succ j ih =>
    rw [acceptMany, requestByte_trace, advance_trace, ih (by omega), start_txPos, Nat.zero_add, memByte_start hj,
      ← List.take_append_getElem hj, List.map_append, List.append_assoc]
    rfl

/-- `j` bytes accepted: they are sent, and the next is handed over. -/
theorem acceptMany_start_handed {s : State} (hhanded : s.handed = []) {bs : List Byte} {j : Nat} (hj : j < bs.length) :
    (acceptMany (start s bs) j).handed = (bs.take j).map (fun b => ⟨b, .sent⟩) ++ [⟨bs[j], .asked⟩] := by
  induction j with
  | zero => rw [acceptMany, start_handed_of_pos hj, hhanded]; rfl
  | succ j ih =>
    rw [acceptMany, requestByte_handed, advance_handed, ih (by omega), settleLast_concat, start_txPos, Nat.zero_add,
      memByte_start hj, ← List.take_append_getElem (by omega), List.map_append]
    rfl

theorem start_txPhase_of_pos {s : State} {bs : List Byte} (h : 0 < bs.length) : (start s bs).txPhase = .write := by
  rw [start_txPhase, if_neg (List.length_pos_iff.1 h)]

/-- The command and what the transport answers to it, run as the answers from START on. -/
theorem runEvents_cmdTransmit {s : State} {bs : List Byte} (henabled : s.fault = none) (hidle : s.txPhase = .idle)
    (hfit : bs.length ≤ s.cfg.txCap) (is : List Instr) :
    runEvents (.cmdTransmit bs :: is) s = runEvents is (start s bs) := by
  rw [runEvents, exec_cmdTransmit_of_le henabled hidle hfit]

/-- Settles O31: the empty transmission is a flush; the others are accepted to their last byte. -/
theorem completedTransmissionTrace : Obligations.CompletedTransmissionTrace := by
  intro s bs henabled hidle hhanded hfit
  simp only [expandAsm, runEvents_cmdTransmit henabled hidle hfit]
  cases hlen : bs.length with
  | zero =>
    obtain rfl := List.length_eq_zero_iff.1 hlen
    have hflush := exec_txFlushDone_of_flush (s := start s []) (by simp [henabled]) rfl
    refine ⟨released (start s []), by simp only [List.replicate_zero, List.nil_append, runEvents, hflush],
      memRead_start_txBuf s [], ?_⟩
    simp [released, emit_releaseTx, hidle, hhanded]
  | succ j =>
    have hj : j < bs.length := by omega
    have hrun := runEvents_accepted (s := start s bs) (j := j) (by simp [henabled]) (start_txPhase_of_pos (by omega))
      (by simpa using hfit) (by simp [hlen])
    refine ⟨_, hrun, fun i => ?_, ?_⟩
    · simpa [hlen] using memRead_start_txBuf s bs i
    · have hall : bs.take (j + 1) = bs := List.take_of_length_le hlen.le
      have hline : (bs.take j).map (fun b => (⟨b, .sent⟩ : LineByte)) ++ [⟨bs[j], .sent⟩] =
          bs.map (fun b => ⟨b, .sent⟩) := by
        rw [← List.map_singleton (f := fun b => (⟨b, .sent⟩ : LineByte)), ← List.map_append,
          List.take_append_getElem, hall]
      simp [-List.map_take, released, emit_releaseTx, hidle, hhanded, acceptMany_start_trace s hj,
        acceptMany_start_handed hhanded hj, hall, hlen, hline]

/-- Settles O32: the bytes before the failed one are accepted, and its failure ends the transmission. -/
theorem failedTransmissionTrace : Obligations.FailedTransmissionTrace := by
  intro s bs k b henabled hidle hhanded hfit hb
  obtain ⟨hk, rfl⟩ := List.getElem?_eq_some_iff.1 hb
  have hrun := runEvents_failed (s := start s bs) (j := k) (by simp [henabled]) (start_txPhase_of_pos (by omega))
    (by simpa using hfit) (by simpa using hk)
  rw [List.cons_append, runEvents_cmdTransmit henabled hidle hfit]
  refine ⟨_, hrun, fun i => ?_, ?_⟩
  · simpa using memRead_start_txBuf s bs i
  · simp [released, emit_releaseTx, hidle, hhanded, acceptMany_start_trace s hk, acceptMany_start_handed hhanded hk]

end Sys2Proof.Machine
end
